-- ==== Sys2Proof/Word.lean ====
section
/-! DEFINITION. The widths of the block's values: unsigned bit vectors of a stated width (00_scope.md R8, R10). -/

namespace Sys2Proof

/-- One bit: a flag cell or a flag operand. -/
abbrev Bit := BitVec 1

/-- The document's `u8`. -/
abbrev Byte := BitVec 8

/-- The document's `u16`. -/
abbrev Word16 := BitVec 16

/-- An operation select code (30_encoding.md R72). -/
abbrev Sel := BitVec 6

/-- A command word, `sel ++ wdata` (30_encoding.md R71). -/
abbrev CommandWord := BitVec 22

end Sys2Proof
end

