-- ==== Sys2Proof/Config.lean ====
section
/-! DEFINITION. The parameters of the block (00_scope.md R8). All are fixed constants: no parameter is left open
and no value of this hardware is free, so there is no opaque constant here. -/

namespace Sys2Proof.Config

/-- `CELL8_RESET`: each of A, B, C, D, E, H, L after reset. -/
def cell8Reset : Byte := 0x00#8

/-- `SP_RESET`. -/
def spReset : Word16 := 0xFFFE#16

/-- `PC_RESET`. -/
def pcReset : Word16 := 0x0100#16

/-- `FLAG_MASK`: the meaningful bits of the flag byte. -/
def flagMask : Byte := 0xF0#8

end Sys2Proof.Config
end

