-- ==== Sys2Proof/Syntax.lean ====
section
/-! DEFINITION. The operations of the block, one constructor per row of spec/opcode_table.json, with typed operands, and the
inputs of one port cycle. A bit the operation ignores (30_encoding.md R78, R81) is no part of the operation. -/

namespace Sys2Proof

/-- The seven 8-bit cells (10_state.md R22). -/
inductive Reg8 where
  | A | B | C | D | E | H | L
deriving DecidableEq, Repr

/-- The four conditions (40_flags_packer.md R90): Zero, Subtraction, Half-Carry, Carry. -/
inductive Cond where
  | ZF | NF | HF | CF
deriving DecidableEq, Repr

/-- The four pair views (10_state.md R40). -/
inductive Pair where
  | AF | BC | DE | HL
deriving DecidableEq, Repr

/-- The 38 operations. At this level the operand of WR8 is by type a byte and that of WRFL a bit (30_encoding.md R78). -/
inductive Instr where
  -- class CTRL (41_control.md)
  | nop
  | reset
  -- class REG8 (43_direct_access.md)
  | rd8A
  | rd8F
  | rd8B
  | rd8C
  | rd8D
  | rd8E
  | rd8H
  | rd8L
  | wr8A (v : Byte)
  | wr8F (v : Byte)
  | wr8B (v : Byte)
  | wr8C (v : Byte)
  | wr8D (v : Byte)
  | wr8E (v : Byte)
  | wr8H (v : Byte)
  | wr8L (v : Byte)
  -- class FLAG (43_direct_access.md)
  | rdflZF
  | rdflNF
  | rdflHF
  | rdflCF
  | wrflZF (v : Bit)
  | wrflNF (v : Bit)
  | wrflHF (v : Bit)
  | wrflCF (v : Bit)
  -- class WIDE (42_pair_access.md, 43_direct_access.md)
  | rdpAF
  | rdpBC
  | rdpDE
  | rdpHL
  | rdwSP
  | rdwPC
  | wrpAF (v : Word16)
  | wrpBC (v : Word16)
  | wrpDE (v : Word16)
  | wrpHL (v : Word16)
  | wrwSP (v : Word16)
  | wrwPC (v : Word16)
deriving DecidableEq, Repr

/-- The inputs of one clock cycle (30_encoding.md R69). `true` is a pin at 1. -/
structure Cycle where
  /-- Synchronous reset, active high. -/
  rst : Bool
  /-- This cycle carries a command in `sel` and `wdata`. -/
  cmdValid : Bool
  /-- Operation select code. -/
  sel : Sel
  /-- Write operand. -/
  wdata : Word16
deriving DecidableEq, Repr

/-- A cycle in which the owner calls nothing (30_encoding.md R70). -/
def Cycle.idle : Cycle := ⟨false, false, 0, 0⟩

end Sys2Proof
end

