-- ==== Sys2Proof/WellFormed.lean ====
section
/-! DEFINITION. What the master of the port may present (70_reset_and_hazards.md R202). An `Instr` has no ill-formed term:
every value of its typed operand is legal (00_scope.md R9), so the checks are on select codes, command words and cycles. -/

namespace Sys2Proof

/-- The 26 reserved select codes, as 30_encoding.md R80 lists them. -/
def reservedSel (sel : Sel) : Bool :=
  (0x01 ≤ sel && sel ≤ 0x07) || (0x09 ≤ sel && sel ≤ 0x0F) || (0x24 ≤ sel && sel ≤ 0x27) || (0x2C ≤ sel && sel ≤ 0x2F)
    || sel == 0x36 || sel == 0x37 || sel == 0x3E || sel == 0x3F

/-- A command word the owner may issue: `cw[21:16]` is no reserved code. -/
def wellFormedWord (cw : CommandWord) : Bool := !reservedSel (cw.extractLsb' 16 6)

/-- A cycle the master may present: with `cmd_valid` = 1 and `rst` = 0, `sel` holds a defined code (R202). In any other
cycle `sel` may hold anything (30_encoding.md R70, 41_control.md R107). -/
def Cycle.wellFormed (c : Cycle) : Bool := c.rst || !c.cmdValid || !reservedSel c.sel

end Sys2Proof
end

