-- ==== Sys2Proof/Decode.lean ====
section
/-! DEFINITION. Decoding of a command word and of a port cycle (30_encoding.md R71 to R82), the encoder, the opcode table as
data, and the text forms (R83). -/

namespace Sys2Proof

/-- What a select code with its operand stands for: one of the 38 operations, or nothing, named by the reserved code (R80). -/
inductive Decoded where
  | op (i : Instr)
  | reserved (sel : Sel)
deriving DecidableEq, Repr

/-! ## Fields (R71, R72) -/

/-- `cw[21:16]`. -/
def cwSel (cw : CommandWord) : Sel := cw.extractLsb' 16 6

/-- `cw[15:0]`. -/
def cwWdata (cw : CommandWord) : Word16 := cw.extractLsb' 0 16

/-- `cls = sel[5:4]`. -/
def selCls (sel : Sel) : BitVec 2 := sel.extractLsb' 4 2

/-- `w = sel[3]`: 0 read or no effect, 1 write. -/
def selW (sel : Sel) : Bit := sel.extractLsb' 3 1

/-- `idx = sel[2:0]`. -/
def selIdx (sel : Sel) : BitVec 3 := sel.extractLsb' 0 3

/-! ## Operands (R78): as many low bits of `wdata` as the item is wide; the rest is ignored -/

/-- The operand of WR8: `wdata[7:0]`. -/
def operand8 (wdata : Word16) : Byte := wdata.extractLsb' 0 8

/-- The operand of WRFL: `wdata[0]`. -/
def operand1 (wdata : Word16) : Bit := wdata.extractLsb' 0 1

/-! ## The four classes -/

/-- Class CTRL (R73). -/
def decodeCtrl (sel : Sel) : Decoded :=
  match selW sel, selIdx sel with
  | 0#1, 0#3 => .op .nop
  | 1#1, 0#3 => .op .reset
  | _, _ => .reserved sel

/-- Class REG8 (R74), in the source's save-state order A, F, B, C, D, E, H, L. No code is reserved. -/
def decodeReg8 (sel : Sel) (wdata : Word16) : Decoded :=
  match selW sel, selIdx sel with
  | 0#1, 0#3 => .op .rd8A
  | 0#1, 1#3 => .op .rd8F
  | 0#1, 2#3 => .op .rd8B
  | 0#1, 3#3 => .op .rd8C
  | 0#1, 4#3 => .op .rd8D
  | 0#1, 5#3 => .op .rd8E
  | 0#1, 6#3 => .op .rd8H
  | 0#1, 7#3 => .op .rd8L
  | 1#1, 0#3 => .op (.wr8A (operand8 wdata))
  | 1#1, 1#3 => .op (.wr8F (operand8 wdata))
  | 1#1, 2#3 => .op (.wr8B (operand8 wdata))
  | 1#1, 3#3 => .op (.wr8C (operand8 wdata))
  | 1#1, 4#3 => .op (.wr8D (operand8 wdata))
  | 1#1, 5#3 => .op (.wr8E (operand8 wdata))
  | 1#1, 6#3 => .op (.wr8H (operand8 wdata))
  | 1#1, 7#3 => .op (.wr8L (operand8 wdata))
  | _, _ => .reserved sel

/-- Class FLAG (R75), in the source's order Zero, Subtraction, Half-Carry, Carry; codes with `idx[2]` = 1 are reserved. -/
def decodeFlag (sel : Sel) (wdata : Word16) : Decoded :=
  match selW sel, selIdx sel with
  | 0#1, 0#3 => .op .rdflZF
  | 0#1, 1#3 => .op .rdflNF
  | 0#1, 2#3 => .op .rdflHF
  | 0#1, 3#3 => .op .rdflCF
  | 1#1, 0#3 => .op (.wrflZF (operand1 wdata))
  | 1#1, 1#3 => .op (.wrflNF (operand1 wdata))
  | 1#1, 2#3 => .op (.wrflHF (operand1 wdata))
  | 1#1, 3#3 => .op (.wrflCF (operand1 wdata))
  | _, _ => .reserved sel

/-- Class WIDE (R76): the four pairs, then SP and PC; `idx` 6 and 7 are reserved. -/
def decodeWide (sel : Sel) (wdata : Word16) : Decoded :=
  match selW sel, selIdx sel with
  | 0#1, 0#3 => .op .rdpAF
  | 0#1, 1#3 => .op .rdpBC
  | 0#1, 2#3 => .op .rdpDE
  | 0#1, 3#3 => .op .rdpHL
  | 0#1, 4#3 => .op .rdwSP
  | 0#1, 5#3 => .op .rdwPC
  | 1#1, 0#3 => .op (.wrpAF wdata)
  | 1#1, 1#3 => .op (.wrpBC wdata)
  | 1#1, 2#3 => .op (.wrpDE wdata)
  | 1#1, 3#3 => .op (.wrpHL wdata)
  | 1#1, 4#3 => .op (.wrwSP wdata)
  | 1#1, 5#3 => .op (.wrwPC wdata)
  | _, _ => .reserved sel

/-- The operation a select code with its operand stands for (R72 to R77). -/
def decodeSel (sel : Sel) (wdata : Word16) : Decoded :=
  match selCls sel with
  | 0b00#2 => decodeCtrl sel
  | 0b01#2 => decodeReg8 sel wdata
  | 0b10#2 => decodeFlag sel wdata
  | 0b11#2 => decodeWide sel wdata
  | _ => .reserved sel

/-- The decoder of a command word. -/
def decode (cw : CommandWord) : Decoded := decodeSel (cwSel cw) (cwWdata cw)

/-- The operation a port cycle performs, in the order of R77: `rst` first, then the idle cycle, then the command. -/
def Cycle.operation (c : Cycle) : Decoded :=
  if c.rst then .op .reset
  else if c.cmdValid then decodeSel c.sel c.wdata
  else .op .nop

/-! ## The encoder -/

/-- The select code of an operation (R73 to R76). -/
def Instr.sel : Instr → Sel
  | .nop => 0x00#6
  | .reset => 0x08#6
  | .rd8A => 0x10#6
  | .rd8F => 0x11#6
  | .rd8B => 0x12#6
  | .rd8C => 0x13#6
  | .rd8D => 0x14#6
  | .rd8E => 0x15#6
  | .rd8H => 0x16#6
  | .rd8L => 0x17#6
  | .wr8A _ => 0x18#6
  | .wr8F _ => 0x19#6
  | .wr8B _ => 0x1A#6
  | .wr8C _ => 0x1B#6
  | .wr8D _ => 0x1C#6
  | .wr8E _ => 0x1D#6
  | .wr8H _ => 0x1E#6
  | .wr8L _ => 0x1F#6
  | .rdflZF => 0x20#6
  | .rdflNF => 0x21#6
  | .rdflHF => 0x22#6
  | .rdflCF => 0x23#6
  | .wrflZF _ => 0x28#6
  | .wrflNF _ => 0x29#6
  | .wrflHF _ => 0x2A#6
  | .wrflCF _ => 0x2B#6
  | .rdpAF => 0x30#6
  | .rdpBC => 0x31#6
  | .rdpDE => 0x32#6
  | .rdpHL => 0x33#6
  | .rdwSP => 0x34#6
  | .rdwPC => 0x35#6
  | .wrpAF _ => 0x38#6
  | .wrpBC _ => 0x39#6
  | .wrpDE _ => 0x3A#6
  | .wrpHL _ => 0x3B#6
  | .wrwSP _ => 0x3C#6
  | .wrwPC _ => 0x3D#6

/-- The `wdata` of an operation (R78): the operand in the low bits; the bits the operation ignores are written as zeros. -/
def Instr.wdata : Instr → Word16
  | .nop => 0#16
  | .reset => 0#16
  | .rd8A => 0#16
  | .rd8F => 0#16
  | .rd8B => 0#16
  | .rd8C => 0#16
  | .rd8D => 0#16
  | .rd8E => 0#16
  | .rd8H => 0#16
  | .rd8L => 0#16
  | .wr8A v => v.setWidth 16
  | .wr8F v => v.setWidth 16
  | .wr8B v => v.setWidth 16
  | .wr8C v => v.setWidth 16
  | .wr8D v => v.setWidth 16
  | .wr8E v => v.setWidth 16
  | .wr8H v => v.setWidth 16
  | .wr8L v => v.setWidth 16
  | .rdflZF => 0#16
  | .rdflNF => 0#16
  | .rdflHF => 0#16
  | .rdflCF => 0#16
  | .wrflZF v => v.setWidth 16
  | .wrflNF v => v.setWidth 16
  | .wrflHF v => v.setWidth 16
  | .wrflCF v => v.setWidth 16
  | .rdpAF => 0#16
  | .rdpBC => 0#16
  | .rdpDE => 0#16
  | .rdpHL => 0#16
  | .rdwSP => 0#16
  | .rdwPC => 0#16
  | .wrpAF v => v
  | .wrpBC v => v
  | .wrpDE v => v
  | .wrpHL v => v
  | .wrwSP v => v
  | .wrwPC v => v

/-- The command word of an operation (R71). -/
def encode (i : Instr) : CommandWord := i.sel ++ i.wdata

/-- The port cycle in which the owner performs an operation through the command port. -/
def Instr.command (i : Instr) : Cycle := ⟨false, true, i.sel, i.wdata⟩

/-! ## The opcode table as data, and the decoder that is written from it alone (R77) -/

/-- One row of opcode_table.json: its `match` number, the operand bits its pattern marks `d`, and the operation as a function
of the command word's low half. -/
structure OpcodeRow where
  matchWord : CommandWord
  operandBits : CommandWord
  build : Word16 → Instr

/-- Every row's mask. -/
def rowMask : CommandWord := 0x3F0000#22

/-- The 38 rows, in the table's order. -/
def opcodeTable : List OpcodeRow := [
  ⟨0x000000#22, 0x000000#22, fun _ => .nop⟩,
  ⟨0x080000#22, 0x000000#22, fun _ => .reset⟩,
  ⟨0x100000#22, 0x000000#22, fun _ => .rd8A⟩,
  ⟨0x110000#22, 0x000000#22, fun _ => .rd8F⟩,
  ⟨0x120000#22, 0x000000#22, fun _ => .rd8B⟩,
  ⟨0x130000#22, 0x000000#22, fun _ => .rd8C⟩,
  ⟨0x140000#22, 0x000000#22, fun _ => .rd8D⟩,
  ⟨0x150000#22, 0x000000#22, fun _ => .rd8E⟩,
  ⟨0x160000#22, 0x000000#22, fun _ => .rd8H⟩,
  ⟨0x170000#22, 0x000000#22, fun _ => .rd8L⟩,
  ⟨0x180000#22, 0x0000FF#22, fun d => .wr8A (operand8 d)⟩,
  ⟨0x190000#22, 0x0000FF#22, fun d => .wr8F (operand8 d)⟩,
  ⟨0x1A0000#22, 0x0000FF#22, fun d => .wr8B (operand8 d)⟩,
  ⟨0x1B0000#22, 0x0000FF#22, fun d => .wr8C (operand8 d)⟩,
  ⟨0x1C0000#22, 0x0000FF#22, fun d => .wr8D (operand8 d)⟩,
  ⟨0x1D0000#22, 0x0000FF#22, fun d => .wr8E (operand8 d)⟩,
  ⟨0x1E0000#22, 0x0000FF#22, fun d => .wr8H (operand8 d)⟩,
  ⟨0x1F0000#22, 0x0000FF#22, fun d => .wr8L (operand8 d)⟩,
  ⟨0x200000#22, 0x000000#22, fun _ => .rdflZF⟩,
  ⟨0x210000#22, 0x000000#22, fun _ => .rdflNF⟩,
  ⟨0x220000#22, 0x000000#22, fun _ => .rdflHF⟩,
  ⟨0x230000#22, 0x000000#22, fun _ => .rdflCF⟩,
  ⟨0x280000#22, 0x000001#22, fun d => .wrflZF (operand1 d)⟩,
  ⟨0x290000#22, 0x000001#22, fun d => .wrflNF (operand1 d)⟩,
  ⟨0x2A0000#22, 0x000001#22, fun d => .wrflHF (operand1 d)⟩,
  ⟨0x2B0000#22, 0x000001#22, fun d => .wrflCF (operand1 d)⟩,
  ⟨0x300000#22, 0x000000#22, fun _ => .rdpAF⟩,
  ⟨0x310000#22, 0x000000#22, fun _ => .rdpBC⟩,
  ⟨0x320000#22, 0x000000#22, fun _ => .rdpDE⟩,
  ⟨0x330000#22, 0x000000#22, fun _ => .rdpHL⟩,
  ⟨0x340000#22, 0x000000#22, fun _ => .rdwSP⟩,
  ⟨0x350000#22, 0x000000#22, fun _ => .rdwPC⟩,
  ⟨0x380000#22, 0x00FFFF#22, fun d => .wrpAF d⟩,
  ⟨0x390000#22, 0x00FFFF#22, fun d => .wrpBC d⟩,
  ⟨0x3A0000#22, 0x00FFFF#22, fun d => .wrpDE d⟩,
  ⟨0x3B0000#22, 0x00FFFF#22, fun d => .wrpHL d⟩,
  ⟨0x3C0000#22, 0x00FFFF#22, fun d => .wrwSP d⟩,
  ⟨0x3D0000#22, 0x00FFFF#22, fun d => .wrwPC d⟩]

/-- The row with `(cw & mask) == match`, if there is one (R77). -/
def decodeByTable (cw : CommandWord) : Option Instr :=
  (opcodeTable.find? fun r => cw &&& rowMask == r.matchWord).map fun r => r.build (cwWdata cw)

/-! ## The host's numbering -/

/-- The command word whose bits are `w`, or none if `w` has a bit that the 22-bit command word lacks (log 5). -/
def tableWord (nbits w : Nat) : Option CommandWord :=
  if w % 2 ^ nbits < 2 ^ 22 then some (BitVec.ofNat 22 (w % 2 ^ nbits)) else none

/-- The instruction the decoder reads from the instruction whose bits are `w` in the opcode table's numbering. -/
def decodeTableWord (nbits w : Nat) : Option Instr :=
  match tableWord nbits w with
  | some cw =>
    match decode cw with
    | .op i => some i
    | .reserved _ => none
  | none => none

/-! ## Text forms (R83) -/

/-- The mnemonic, as opcode_table.json spells it. -/
def Instr.mnemonic : Instr → String
  | .nop => "NOP"
  | .reset => "RESET"
  | .rd8A => "RD8.A"
  | .rd8F => "RD8.F"
  | .rd8B => "RD8.B"
  | .rd8C => "RD8.C"
  | .rd8D => "RD8.D"
  | .rd8E => "RD8.E"
  | .rd8H => "RD8.H"
  | .rd8L => "RD8.L"
  | .wr8A _ => "WR8.A"
  | .wr8F _ => "WR8.F"
  | .wr8B _ => "WR8.B"
  | .wr8C _ => "WR8.C"
  | .wr8D _ => "WR8.D"
  | .wr8E _ => "WR8.E"
  | .wr8H _ => "WR8.H"
  | .wr8L _ => "WR8.L"
  | .rdflZF => "RDFL.ZF"
  | .rdflNF => "RDFL.NF"
  | .rdflHF => "RDFL.HF"
  | .rdflCF => "RDFL.CF"
  | .wrflZF _ => "WRFL.ZF"
  | .wrflNF _ => "WRFL.NF"
  | .wrflHF _ => "WRFL.HF"
  | .wrflCF _ => "WRFL.CF"
  | .rdpAF => "RDP.AF"
  | .rdpBC => "RDP.BC"
  | .rdpDE => "RDP.DE"
  | .rdpHL => "RDP.HL"
  | .rdwSP => "RDW.SP"
  | .rdwPC => "RDW.PC"
  | .wrpAF _ => "WRP.AF"
  | .wrpBC _ => "WRP.BC"
  | .wrpDE _ => "WRP.DE"
  | .wrpHL _ => "WRP.HL"
  | .wrwSP _ => "WRW.SP"
  | .wrwPC _ => "WRW.PC"

/-- One hexadecimal digit. -/
def hexDigit (n : Nat) : Char := "0123456789ABCDEF".toList.getD n '0'

/-- `n` as exactly `digits` hexadecimal digits. -/
def hexDigits : Nat → Nat → List Char
  | 0, _ => []
  | digits + 1, n => hexDigits digits (n / 16) ++ [hexDigit (n % 16)]

/-- `0x` and the digits, the form of 30_encoding.md R83's operands and results. -/
def hexText (digits n : Nat) : String := "0x" ++ String.ofList (hexDigits digits n)

/-- The operand as text: none for a read, NOP or RESET, one digit for a flag bit, `0x7F` for a byte, `0x1234` for 16 bits. -/
def Instr.operandText : Instr → Option String
  | .nop => none
  | .reset => none
  | .rd8A => none
  | .rd8F => none
  | .rd8B => none
  | .rd8C => none
  | .rd8D => none
  | .rd8E => none
  | .rd8H => none
  | .rd8L => none
  | .wr8A v => some (hexText 2 v.toNat)
  | .wr8F v => some (hexText 2 v.toNat)
  | .wr8B v => some (hexText 2 v.toNat)
  | .wr8C v => some (hexText 2 v.toNat)
  | .wr8D v => some (hexText 2 v.toNat)
  | .wr8E v => some (hexText 2 v.toNat)
  | .wr8H v => some (hexText 2 v.toNat)
  | .wr8L v => some (hexText 2 v.toNat)
  | .rdflZF => none
  | .rdflNF => none
  | .rdflHF => none
  | .rdflCF => none
  | .wrflZF v => some (String.ofList (hexDigits 1 v.toNat))
  | .wrflNF v => some (String.ofList (hexDigits 1 v.toNat))
  | .wrflHF v => some (String.ofList (hexDigits 1 v.toNat))
  | .wrflCF v => some (String.ofList (hexDigits 1 v.toNat))
  | .rdpAF => none
  | .rdpBC => none
  | .rdpDE => none
  | .rdpHL => none
  | .rdwSP => none
  | .rdwPC => none
  | .wrpAF v => some (hexText 4 v.toNat)
  | .wrpBC v => some (hexText 4 v.toNat)
  | .wrpDE v => some (hexText 4 v.toNat)
  | .wrpHL v => some (hexText 4 v.toNat)
  | .wrwSP v => some (hexText 4 v.toNat)
  | .wrwPC v => some (hexText 4 v.toNat)

/-- One line of a program: `RD8.B`, `WR8.B 0x7F`, `WRFL.CF 1`, `WRP.HL 0x1234`. -/
def Instr.text (i : Instr) : String :=
  match i.operandText with
  | some v => i.mnemonic ++ " " ++ v
  | none => i.mnemonic

/-- A read's line with the value it returned: `RDP.HL -> 0x1234`. -/
def resultText (i : Instr) (v : Word16) : String := i.text ++ " -> " ++ hexText 4 v.toNat

end Sys2Proof
end

