-- ==== Sys2Proof/Machine/State.lean ====
section
/-! DEFINITION. The state as plain data: the thirteen cells of 10_state.md R20, the two output wires of the port, the cycles
the master will still present, and the flag "not yet reset" of 70_reset_and_hazards.md R197. -/

namespace Sys2Proof.Machine

/-- A Flags value (40_flags_packer.md R90): four independent 1-bit fields. As `Cells.fl` they are the four flag cells; the
low nibble of F has no storage (10_state.md R35). -/
structure Flags where
  /-- Zero, bit 7 of F (10_state.md R31). -/
  zf : Bit
  /-- Subtraction, bit 6 of F (R32). -/
  nf : Bit
  /-- Half-Carry, bit 5 of F (R33). -/
  hf : Bit
  /-- Carry, bit 4 of F (R34). -/
  cf : Bit
deriving DecidableEq, Repr

/-- The whole architectural state S of the block: thirteen cells, 92 bits (10_state.md R20). -/
structure Cells where
  /-- The accumulator (R23). -/
  a : Byte
  /-- R24. -/
  b : Byte
  /-- R25; not the Carry flag. -/
  c : Byte
  /-- R26. -/
  d : Byte
  /-- R27. -/
  e : Byte
  /-- R28; not the Half-Carry flag. -/
  h : Byte
  /-- R29. -/
  l : Byte
  /-- The four flag cells (R30 to R35). -/
  fl : Flags
  /-- The stack pointer (R38). -/
  sp : Word16
  /-- The program counter (R39). The block never advances it. -/
  pc : Word16
deriving DecidableEq, Repr

/-- The reasons the machine stops with a fault: none. The block raises no exception and has no fault output
(60_exceptions.md R175, 30_encoding.md R69), so this closed type has no constructor. -/
inductive Fault where
deriving DecidableEq, Repr

/-- The reasons a step has no result. -/
inductive Refusal where
  /-- Raised by an arm of `exec` without a meaning. Safe. No arm raises it. -/
  | notModelled (mnemonic : String)
  /-- Raised by `step` in a cycle with `rst` = 0, `cmd_valid` = 1 and a reserved select code, to which the spec gives no
  meaning and which a model must refuse (30_encoding.md R80, 93 U1). Safe. -/
  | reservedSelect (sel : Sel)
  /-- Raised by `step` for any operation other than RESET on a block that has not been reset (70_reset_and_hazards.md R197,
  93 U2). Safe. -/
  | beforeFirstReset
deriving DecidableEq, Repr

/-- The machine. -/
structure State where
  /-- The thirteen cells. -/
  cells : Cells
  /-- False is the flag "not yet reset" of R197: no RESET has been performed since power was applied. -/
  resetDone : Bool
  /-- Output `rvalid` of the cycle performed last (30_encoding.md R69, R79). -/
  rvalid : Bool
  /-- Output `rdata` of the cycle performed last (R69, R79). -/
  rdata : Word16
  /-- The inputs of the cycles to come, the next one first. An empty list: the owner calls nothing (R70). -/
  inputs : List Cycle
deriving DecidableEq, Repr

/-- `ResetState` (10_state.md R49). -/
def Cells.reset : Cells where
  a := Config.cell8Reset
  b := Config.cell8Reset
  c := Config.cell8Reset
  d := Config.cell8Reset
  e := Config.cell8Reset
  h := Config.cell8Reset
  l := Config.cell8Reset
  fl := ⟨0, 0, 0, 0⟩
  sp := Config.spReset
  pc := Config.pcReset

/-- The machine right after the first reset: `ResetState`, the outputs as in a cycle that resets (41_control.md R107), no
command waiting. -/
def State.reset : State where
  cells := Cells.reset
  resetDone := true
  rvalid := false
  rdata := 0x0000#16
  inputs := []

end Sys2Proof.Machine
end

