-- ==== Sys2Proof/Machine/Flags.lean ====
section
/-! DEFINITION. The flags packer's functions (40_flags_packer.md R90 to R95). The block computes no flag from a result
(10_state.md R36): these five are every flag computation the spec gives. -/

namespace Sys2Proof.Machine

/-- Position of a condition in the flag byte (R90). -/
def bitpos : Cond → Nat
  | .ZF => 7
  | .NF => 6
  | .HF => 5
  | .CF => 4

/-- R91. -/
def flagsEmpty : Flags := ⟨0, 0, 0, 0⟩

/-- R92. -/
def flagsContains (f : Flags) : Cond → Bit
  | .ZF => f.zf
  | .NF => f.nf
  | .HF => f.hf
  | .CF => f.cf

/-- R93: the top four bits; the bottom four are discarded. -/
def flagsFromByte (b : Byte) : Flags where
  zf := b.extractLsb' 7 1
  nf := b.extractLsb' 6 1
  hf := b.extractLsb' 5 1
  cf := b.extractLsb' 4 1

/-- R94: `ZF ++ NF ++ HF ++ CF ++ 0b0000`. -/
def flagsToByte (f : Flags) : Byte := f.zf ++ f.nf ++ f.hf ++ f.cf ++ 0b0000#4

/-- R95: one field replaced, the three others unchanged. -/
def flagsWith (f : Flags) (c : Cond) (b : Bit) : Flags :=
  match c with
  | .ZF => { f with zf := b }
  | .NF => { f with nf := b }
  | .HF => { f with hf := b }
  | .CF => { f with cf := b }

end Sys2Proof.Machine
end

