-- ==== Sys2Proof/Machine/Operands.lean ====
section
/-! DEFINITION. The operand forms: the 8-bit cells `x[r]`, the flag byte F, the flag bits, the pair views with the composer's
two functions (42_pair_access.md R115 to R117), and the width of a result (30_encoding.md R79). -/

namespace Sys2Proof.Machine

/-- `zext_16` of an 8-bit or 1-bit value (R79). -/
def zext16 {n : Nat} (v : BitVec n) : Word16 := v.setWidth 16

/-- R115: the first argument is the high byte. -/
def compose (hi lo : Byte) : Word16 := hi ++ lo

/-- R116: `v[15:8]`. -/
def splitHi (v : Word16) : Byte := v.extractLsb' 8 8

/-- R116: `v[7:0]`. -/
def splitLo (v : Word16) : Byte := v.extractLsb' 0 8

/-- `x[r]`: read of an 8-bit cell (00_scope.md R11). -/
def Cells.read8 (x : Cells) : Reg8 → Byte
  | .A => x.a
  | .B => x.b
  | .C => x.c
  | .D => x.d
  | .E => x.e
  | .H => x.h
  | .L => x.l

/-- `x[r] <- v`. -/
def Cells.write8 (x : Cells) (r : Reg8) (v : Byte) : Cells :=
  match r with
  | .A => { x with a := v }
  | .B => { x with b := v }
  | .C => { x with c := v }
  | .D => { x with d := v }
  | .E => { x with e := v }
  | .H => { x with h := v }
  | .L => { x with l := v }

/-- F as a byte (10_state.md R30). -/
def Cells.readF (x : Cells) : Byte := flagsToByte x.fl

/-- Write of F from a byte: through `flags_from_byte` (40_flags_packer.md R97). -/
def Cells.writeF (x : Cells) (v : Byte) : Cells := { x with fl := flagsFromByte v }

/-- `fl[c]`. -/
def Cells.readFlag (x : Cells) (c : Cond) : Bit := flagsContains x.fl c

/-- `fl[c] <- b`. -/
def Cells.writeFlag (x : Cells) (c : Cond) (b : Bit) : Cells := { x with fl := flagsWith x.fl c b }

/-- `get_pair` (R117 to R121). -/
def Cells.readPair (x : Cells) : Pair → Word16
  | .AF => compose (x.read8 .A) x.readF
  | .BC => compose (x.read8 .B) (x.read8 .C)
  | .DE => compose (x.read8 .D) (x.read8 .E)
  | .HL => compose (x.read8 .H) (x.read8 .L)

/-- `set_pair` (R117, R122 to R125): both halves in one step. -/
def Cells.writePair (x : Cells) (p : Pair) (v : Word16) : Cells :=
  match p with
  | .AF => (x.write8 .A (splitHi v)).writeF (splitLo v)
  | .BC => (x.write8 .B (splitHi v)).write8 .C (splitLo v)
  | .DE => (x.write8 .D (splitHi v)).write8 .E (splitLo v)
  | .HL => (x.write8 .H (splitHi v)).write8 .L (splitLo v)

end Sys2Proof.Machine
end

