-- ==== Sys2Proof/Machine/Ops.lean ====
section
/-! DEFINITION. How an operation ends (`ret v`, `ret none`: 00_scope.md R11, 30_encoding.md R79), how a cycle's inputs are
taken, and which operations a block admits. There is no exception to take and none to return from: the block raises none and
has no trap entry and no trap return (60_exceptions.md R175, R180, R181). -/

namespace Sys2Proof.Machine

/-- `ret v`: the state unchanged, `rvalid` = 1, the value on `rdata`. -/
def State.ret (s : State) (v : Word16) : Host.Outcome State Fault Refusal :=
  .next { s with rvalid := true, rdata := v }

/-- `ret none` with the cells as the operation leaves them: `rvalid` = 0, `rdata` = 0x0000. -/
def State.retNone (s : State) (x : Cells) : Host.Outcome State Fault Refusal :=
  .next { s with cells := x, rvalid := false, rdata := 0x0000#16 }

/-- The inputs of this cycle: the first the master presents, or an idle cycle when it presents none (30_encoding.md R70). -/
def State.cycle (s : State) : Cycle := s.inputs.headD Cycle.idle

/-- The state with this cycle's inputs taken. -/
def State.advance (s : State) : State := { s with inputs := s.inputs.tail }

/-- Before the first reset no operation but RESET is performed (70_reset_and_hazards.md R197). -/
def State.admits (s : State) (i : Instr) : Bool := s.resetDone || i == .reset

/-- The state with a command at the front of the inputs. -/
def State.present (s : State) (cw : CommandWord) : State :=
  { s with inputs := ⟨false, true, cwSel cw, cwWdata cw⟩ :: s.inputs }

end Sys2Proof.Machine
end

