-- ==== Sys2Proof/Machine/ByteAccess.lean ====
section
/-! DEFINITION. Direct access to the byte-wide items (43_direct_access.md): RD8 and WR8. -/

namespace Sys2Proof.Machine

/-- RD8.A (R135). -/
def execRd8A (s : State) : Host.Outcome State Fault Refusal := s.ret (zext16 (s.cells.read8 .A))

/-- RD8.F (R136). -/
def execRd8F (s : State) : Host.Outcome State Fault Refusal := s.ret (zext16 s.cells.readF)

/-- RD8.B (R137). -/
def execRd8B (s : State) : Host.Outcome State Fault Refusal := s.ret (zext16 (s.cells.read8 .B))

/-- RD8.C (R138). -/
def execRd8C (s : State) : Host.Outcome State Fault Refusal := s.ret (zext16 (s.cells.read8 .C))

/-- RD8.D (R139). -/
def execRd8D (s : State) : Host.Outcome State Fault Refusal := s.ret (zext16 (s.cells.read8 .D))

/-- RD8.E (R140). -/
def execRd8E (s : State) : Host.Outcome State Fault Refusal := s.ret (zext16 (s.cells.read8 .E))

/-- RD8.H (R141). -/
def execRd8H (s : State) : Host.Outcome State Fault Refusal := s.ret (zext16 (s.cells.read8 .H))

/-- RD8.L (R142). -/
def execRd8L (s : State) : Host.Outcome State Fault Refusal := s.ret (zext16 (s.cells.read8 .L))

/-- WR8.A (R143). -/
def execWr8A (v : Byte) (s : State) : Host.Outcome State Fault Refusal := s.retNone (s.cells.write8 .A v)

/-- WR8.F (R144). -/
def execWr8F (v : Byte) (s : State) : Host.Outcome State Fault Refusal := s.retNone (s.cells.writeF v)

/-- WR8.B (R145). -/
def execWr8B (v : Byte) (s : State) : Host.Outcome State Fault Refusal := s.retNone (s.cells.write8 .B v)

/-- WR8.C (R146). -/
def execWr8C (v : Byte) (s : State) : Host.Outcome State Fault Refusal := s.retNone (s.cells.write8 .C v)

/-- WR8.D (R147). -/
def execWr8D (v : Byte) (s : State) : Host.Outcome State Fault Refusal := s.retNone (s.cells.write8 .D v)

/-- WR8.E (R148). -/
def execWr8E (v : Byte) (s : State) : Host.Outcome State Fault Refusal := s.retNone (s.cells.write8 .E v)

/-- WR8.H (R149). -/
def execWr8H (v : Byte) (s : State) : Host.Outcome State Fault Refusal := s.retNone (s.cells.write8 .H v)

/-- WR8.L (R150). -/
def execWr8L (v : Byte) (s : State) : Host.Outcome State Fault Refusal := s.retNone (s.cells.write8 .L v)

end Sys2Proof.Machine
end

