-- ==== Sys2Proof/Machine/Control.lean ====
section
/-! DEFINITION. The control operations (41_control.md). -/

namespace Sys2Proof.Machine

/-- NOP (R106). -/
def execNop (s : State) : Host.Outcome State Fault Refusal := s.retNone s.cells

/-- RESET (R105): all thirteen cells in one step, whatever they held; afterwards the block has been reset (R197). -/
def execReset (s : State) : Host.Outcome State Fault Refusal :=
  State.retNone { s with resetDone := true }
    { a := 0x00, b := 0x00, c := 0x00, d := 0x00, e := 0x00, h := 0x00, l := 0x00,
      fl := flagsEmpty, sp := 0xFFFE, pc := 0x0100 }

end Sys2Proof.Machine
end

