-- ==== Sys2Proof/Machine/FlagAccess.lean ====
section
/-! DEFINITION. Direct access to the flag bits (43_direct_access.md): RDFL and WRFL. -/

namespace Sys2Proof.Machine

/-- RDFL.ZF (R151). -/
def execRdflZF (s : State) : Host.Outcome State Fault Refusal := s.ret (zext16 (s.cells.readFlag .ZF))

/-- RDFL.NF (R152). -/
def execRdflNF (s : State) : Host.Outcome State Fault Refusal := s.ret (zext16 (s.cells.readFlag .NF))

/-- RDFL.HF (R153). -/
def execRdflHF (s : State) : Host.Outcome State Fault Refusal := s.ret (zext16 (s.cells.readFlag .HF))

/-- RDFL.CF (R154). -/
def execRdflCF (s : State) : Host.Outcome State Fault Refusal := s.ret (zext16 (s.cells.readFlag .CF))

/-- WRFL.ZF (R155). -/
def execWrflZF (v : Bit) (s : State) : Host.Outcome State Fault Refusal := s.retNone (s.cells.writeFlag .ZF v)

/-- WRFL.NF (R156). -/
def execWrflNF (v : Bit) (s : State) : Host.Outcome State Fault Refusal := s.retNone (s.cells.writeFlag .NF v)

/-- WRFL.HF (R157). -/
def execWrflHF (v : Bit) (s : State) : Host.Outcome State Fault Refusal := s.retNone (s.cells.writeFlag .HF v)

/-- WRFL.CF (R158). -/
def execWrflCF (v : Bit) (s : State) : Host.Outcome State Fault Refusal := s.retNone (s.cells.writeFlag .CF v)

end Sys2Proof.Machine
end

