-- ==== Sys2Proof/Machine/PairAccess.lean ====
section
/-! DEFINITION. Pair access (42_pair_access.md): RDP and WRP. -/

namespace Sys2Proof.Machine

/-- RDP.AF (R118). -/
def execRdpAF (s : State) : Host.Outcome State Fault Refusal := s.ret (s.cells.readPair .AF)

/-- RDP.BC (R119). -/
def execRdpBC (s : State) : Host.Outcome State Fault Refusal := s.ret (s.cells.readPair .BC)

/-- RDP.DE (R120). -/
def execRdpDE (s : State) : Host.Outcome State Fault Refusal := s.ret (s.cells.readPair .DE)

/-- RDP.HL (R121). -/
def execRdpHL (s : State) : Host.Outcome State Fault Refusal := s.ret (s.cells.readPair .HL)

/-- WRP.AF (R122). -/
def execWrpAF (v : Word16) (s : State) : Host.Outcome State Fault Refusal := s.retNone (s.cells.writePair .AF v)

/-- WRP.BC (R123). -/
def execWrpBC (v : Word16) (s : State) : Host.Outcome State Fault Refusal := s.retNone (s.cells.writePair .BC v)

/-- WRP.DE (R124). -/
def execWrpDE (v : Word16) (s : State) : Host.Outcome State Fault Refusal := s.retNone (s.cells.writePair .DE v)

/-- WRP.HL (R125). -/
def execWrpHL (v : Word16) (s : State) : Host.Outcome State Fault Refusal := s.retNone (s.cells.writePair .HL v)

end Sys2Proof.Machine
end

