-- ==== Sys2Proof/Machine/WideAccess.lean ====
section
/-! DEFINITION. Direct access to the 16-bit cells (43_direct_access.md): RDW and WRW. SP and PC are plain cells (10_state.md R38, R39). -/

namespace Sys2Proof.Machine

/-- RDW.SP (R159). -/
def execRdwSP (s : State) : Host.Outcome State Fault Refusal := s.ret s.cells.sp

/-- RDW.PC (R160). -/
def execRdwPC (s : State) : Host.Outcome State Fault Refusal := s.ret s.cells.pc

/-- WRW.SP (R161). -/
def execWrwSP (v : Word16) (s : State) : Host.Outcome State Fault Refusal := s.retNone { s.cells with sp := v }

/-- WRW.PC (R162). -/
def execWrwPC (v : Word16) (s : State) : Host.Outcome State Fault Refusal := s.retNone { s.cells with pc := v }

end Sys2Proof.Machine
end

