-- ==== Sys2Proof/Machine/Dispatch.lean ====
section
/-! DEFINITION. One arm per operation. -/

namespace Sys2Proof.Machine

def exec (i : Instr) (s : State) : Host.Outcome State Fault Refusal :=
  match i with
  | .nop => Sys2Proof.Machine.execNop s
  | .reset => Sys2Proof.Machine.execReset s
  | .rd8A => Sys2Proof.Machine.execRd8A s
  | .rd8F => Sys2Proof.Machine.execRd8F s
  | .rd8B => Sys2Proof.Machine.execRd8B s
  | .rd8C => Sys2Proof.Machine.execRd8C s
  | .rd8D => Sys2Proof.Machine.execRd8D s
  | .rd8E => Sys2Proof.Machine.execRd8E s
  | .rd8H => Sys2Proof.Machine.execRd8H s
  | .rd8L => Sys2Proof.Machine.execRd8L s
  | .wr8A v => Sys2Proof.Machine.execWr8A v s
  | .wr8F v => Sys2Proof.Machine.execWr8F v s
  | .wr8B v => Sys2Proof.Machine.execWr8B v s
  | .wr8C v => Sys2Proof.Machine.execWr8C v s
  | .wr8D v => Sys2Proof.Machine.execWr8D v s
  | .wr8E v => Sys2Proof.Machine.execWr8E v s
  | .wr8H v => Sys2Proof.Machine.execWr8H v s
  | .wr8L v => Sys2Proof.Machine.execWr8L v s
  | .rdflZF => Sys2Proof.Machine.execRdflZF s
  | .rdflNF => Sys2Proof.Machine.execRdflNF s
  | .rdflHF => Sys2Proof.Machine.execRdflHF s
  | .rdflCF => Sys2Proof.Machine.execRdflCF s
  | .wrflZF v => Sys2Proof.Machine.execWrflZF v s
  | .wrflNF v => Sys2Proof.Machine.execWrflNF v s
  | .wrflHF v => Sys2Proof.Machine.execWrflHF v s
  | .wrflCF v => Sys2Proof.Machine.execWrflCF v s
  | .rdpAF => Sys2Proof.Machine.execRdpAF s
  | .rdpBC => Sys2Proof.Machine.execRdpBC s
  | .rdpDE => Sys2Proof.Machine.execRdpDE s
  | .rdpHL => Sys2Proof.Machine.execRdpHL s
  | .rdwSP => Sys2Proof.Machine.execRdwSP s
  | .rdwPC => Sys2Proof.Machine.execRdwPC s
  | .wrpAF v => Sys2Proof.Machine.execWrpAF v s
  | .wrpBC v => Sys2Proof.Machine.execWrpBC v s
  | .wrpDE v => Sys2Proof.Machine.execWrpDE v s
  | .wrpHL v => Sys2Proof.Machine.execWrpHL v s
  | .wrwSP v => Sys2Proof.Machine.execWrwSP v s
  | .wrwPC v => Sys2Proof.Machine.execWrwPC v s

end Sys2Proof.Machine
end

