-- ==== Sys2Proof/Machine/Step.lean ====
section
/-! DEFINITION. One step: one clock cycle of the port, which spells exactly one operation (30_encoding.md R67, R77). -/

namespace Sys2Proof.Machine

/-- One rising clock edge: the cycle's inputs are taken and the operation they spell is performed. -/
def step (s : State) : Host.Outcome State Fault Refusal :=
  match s.cycle.operation with
  | .op i => if s.admits i then exec i s.advance else .refused .beforeFirstReset
  | .reserved sel => .refused (.reservedSelect sel)

/-- `s` with the instruction whose bits are `w` (the opcode table's numbering) as the command of the very next cycle. -/
def State.withFetchWord (s : State) (nbits w : Nat) : State :=
  match tableWord nbits w with
  | some cw => s.present cw
  | none => s

end Sys2Proof.Machine
end

