-- ==== Sys2Proof/Machine/Structure.lean ====
section
/-! DEFINITION. The named sub-blocks as hardware: the packer's wires (40_flags_packer.md R99) and the composer's multiplexers
and write demultiplexer (42_pair_access.md R129). Informative in the spec: the machine does not use them; the statements
compare them with the functions it uses. -/

namespace Sys2Proof.Machine

/-- The four flag wires `z`, `n`, `h`, `c`. -/
structure FlagWires where
  z : Bool
  n : Bool
  h : Bool
  c : Bool
deriving DecidableEq, Repr

/-- The unpack half: `b[3:0]` is connected to nothing. -/
def unpackWires (b : Byte) : FlagWires := ⟨b.getLsbD 7, b.getLsbD 6, b.getLsbD 5, b.getLsbD 4⟩

/-- The pack half: `q[3:0]` is tied to zero. -/
def packWires (w : FlagWires) : Byte :=
  BitVec.ofBool w.z ++ BitVec.ofBool w.n ++ BitVec.ofBool w.h ++ BitVec.ofBool w.c ++ 0b0000#4

/-- The wires that leave the four flag cells. -/
def Flags.wires (f : Flags) : FlagWires := ⟨f.zf == 1, f.nf == 1, f.hf == 1, f.cf == 1⟩

/-- What the four flag cells latch from the wires. -/
def FlagWires.latch (w : FlagWires) : Flags :=
  ⟨BitVec.ofBool w.z, BitVec.ofBool w.n, BitVec.ofBool w.h, BitVec.ofBool w.c⟩

/-- A 4-to-1 multiplexer of 8 bits, steered by two select lines. -/
def mux4 (idx : BitVec 2) (i0 i1 i2 i3 : Byte) : Byte :=
  bif idx.getLsbD 1 then (bif idx.getLsbD 0 then i3 else i2) else (bif idx.getLsbD 0 then i1 else i0)

/-- The read side: the high and the low multiplexer side by side. -/
def composerRead (idx : BitVec 2) (x : Cells) : Word16 :=
  mux4 idx x.a x.b x.d x.h ++ mux4 idx (packWires x.fl.wires) x.c x.e x.l

/-- The write side: the demultiplexer raises the write enables of exactly the two cells of the pair `idx` selects. -/
def composerWrite (idx : BitVec 2) (wdata : Word16) (x : Cells) : Cells :=
  let hi : Byte := wdata.extractLsb' 8 8
  let lo : Byte := wdata.extractLsb' 0 8
  let en (k : BitVec 2) : Bool := idx == k
  { x with
    a := bif en 0 then hi else x.a
    fl := bif en 0 then (unpackWires lo).latch else x.fl
    b := bif en 1 then hi else x.b
    c := bif en 1 then lo else x.c
    d := bif en 2 then hi else x.d
    e := bif en 2 then lo else x.e
    h := bif en 3 then hi else x.h
    l := bif en 3 then lo else x.l }

/-- `idx[1:0]` of a pair (42_pair_access.md R117). -/
def pairIdx : Pair → BitVec 2
  | .AF => 0
  | .BC => 1
  | .DE => 2
  | .HL => 3

end Sys2Proof.Machine
end

