-- ==== Sys2Proof/Machine/OpLevel.lean ====
section
/-! DEFINITION. The operation level (30_encoding.md R67): `step : S × Operation -> S × (none | u16)` of 00_scope.md R12, on the
thirteen cells alone, written from the table of 20_memory.md R56 (what each operation reads and writes) and not from the
meanings of the machine, with which the statements compare it. -/

namespace Sys2Proof.Machine

/-- The thirteen storage cells by name (10_state.md R20). -/
inductive CellName where
  | a | b | c | d | e | h | l | zf | nf | hf | cf | sp | pc
deriving DecidableEq, Repr

/-- The content of a cell, zero-extended to 16 bits. -/
def Cells.get (x : Cells) : CellName → Word16
  | .a => x.a.setWidth 16
  | .b => x.b.setWidth 16
  | .c => x.c.setWidth 16
  | .d => x.d.setWidth 16
  | .e => x.e.setWidth 16
  | .h => x.h.setWidth 16
  | .l => x.l.setWidth 16
  | .zf => x.fl.zf.setWidth 16
  | .nf => x.fl.nf.setWidth 16
  | .hf => x.fl.hf.setWidth 16
  | .cf => x.fl.cf.setWidth 16
  | .sp => x.sp
  | .pc => x.pc

/-- The items an operation names: an 8-bit cell, F as a byte, a flag, a pair view, SP or PC (30_encoding.md R83). -/
inductive Item where
  | reg (r : Reg8)
  | f
  | flag (c : Cond)
  | pair (p : Pair)
  | sp
  | pc
deriving DecidableEq, Repr

/-- The cells an item is made of (20_memory.md R56). -/
def Item.cells : Item → List CellName
  | .reg .A => [.a]
  | .reg .B => [.b]
  | .reg .C => [.c]
  | .reg .D => [.d]
  | .reg .E => [.e]
  | .reg .H => [.h]
  | .reg .L => [.l]
  | .f => [.zf, .nf, .hf, .cf]
  | .flag .ZF => [.zf]
  | .flag .NF => [.nf]
  | .flag .HF => [.hf]
  | .flag .CF => [.cf]
  | .pair .AF => [.a, .zf, .nf, .hf, .cf]
  | .pair .BC => [.b, .c]
  | .pair .DE => [.d, .e]
  | .pair .HL => [.h, .l]
  | .sp => [.sp]
  | .pc => [.pc]

/-- Two items share a cell (43_direct_access.md R163 (2)). -/
def Item.shares (i j : Item) : Bool := i.cells.any fun n => j.cells.contains n

/-- The value of an item as a read returns it, zero-extended to 16 bits (10_state.md R30, R41 to R44; 30_encoding.md R79). -/
def Item.value (x : Cells) : Item → Word16
  | .reg .A => 0#8 ++ x.a
  | .reg .B => 0#8 ++ x.b
  | .reg .C => 0#8 ++ x.c
  | .reg .D => 0#8 ++ x.d
  | .reg .E => 0#8 ++ x.e
  | .reg .H => 0#8 ++ x.h
  | .reg .L => 0#8 ++ x.l
  | .f => 0#8 ++ x.fl.zf ++ x.fl.nf ++ x.fl.hf ++ x.fl.cf ++ 0#4
  | .flag .ZF => 0#15 ++ x.fl.zf
  | .flag .NF => 0#15 ++ x.fl.nf
  | .flag .HF => 0#15 ++ x.fl.hf
  | .flag .CF => 0#15 ++ x.fl.cf
  | .pair .AF => x.a ++ x.fl.zf ++ x.fl.nf ++ x.fl.hf ++ x.fl.cf ++ 0#4
  | .pair .BC => x.b ++ x.c
  | .pair .DE => x.d ++ x.e
  | .pair .HL => x.h ++ x.l
  | .sp => x.sp
  | .pc => x.pc

/-- Bit `n` of an operand as a flag cell takes it. -/
def bitOf (v : Word16) (n : Nat) : Bit := BitVec.ofBool (v.getLsbD n)

/-- The cells after a write of the operand `v` to an item (30_encoding.md R78): bits outside the item's width, and bits 3 to
0 of a flag byte, are dropped. -/
def Item.store (x : Cells) (v : Word16) : Item → Cells
  | .reg .A => { x with a := v.truncate 8 }
  | .reg .B => { x with b := v.truncate 8 }
  | .reg .C => { x with c := v.truncate 8 }
  | .reg .D => { x with d := v.truncate 8 }
  | .reg .E => { x with e := v.truncate 8 }
  | .reg .H => { x with h := v.truncate 8 }
  | .reg .L => { x with l := v.truncate 8 }
  | .f => { x with fl := ⟨bitOf v 7, bitOf v 6, bitOf v 5, bitOf v 4⟩ }
  | .flag .ZF => { x with fl := { x.fl with zf := bitOf v 0 } }
  | .flag .NF => { x with fl := { x.fl with nf := bitOf v 0 } }
  | .flag .HF => { x with fl := { x.fl with hf := bitOf v 0 } }
  | .flag .CF => { x with fl := { x.fl with cf := bitOf v 0 } }
  | .pair .AF => { x with a := (v >>> 8).truncate 8, fl := ⟨bitOf v 7, bitOf v 6, bitOf v 5, bitOf v 4⟩ }
  | .pair .BC => { x with b := (v >>> 8).truncate 8, c := v.truncate 8 }
  | .pair .DE => { x with d := (v >>> 8).truncate 8, e := v.truncate 8 }
  | .pair .HL => { x with h := (v >>> 8).truncate 8, l := v.truncate 8 }
  | .sp => { x with sp := v }
  | .pc => { x with pc := v }

/-- What an operation does to the items. -/
inductive Access where
  | nothing
  | reset
  | read (it : Item)
  | write (it : Item) (v : Word16)
deriving DecidableEq, Repr

/-- The rows of the table of R56. -/
def accessOf : Instr → Access
  | .nop => .nothing
  | .reset => .reset
  | .rd8A => .read (.reg .A)
  | .rd8F => .read .f
  | .rd8B => .read (.reg .B)
  | .rd8C => .read (.reg .C)
  | .rd8D => .read (.reg .D)
  | .rd8E => .read (.reg .E)
  | .rd8H => .read (.reg .H)
  | .rd8L => .read (.reg .L)
  | .wr8A v => .write (.reg .A) (v.setWidth 16)
  | .wr8F v => .write .f (v.setWidth 16)
  | .wr8B v => .write (.reg .B) (v.setWidth 16)
  | .wr8C v => .write (.reg .C) (v.setWidth 16)
  | .wr8D v => .write (.reg .D) (v.setWidth 16)
  | .wr8E v => .write (.reg .E) (v.setWidth 16)
  | .wr8H v => .write (.reg .H) (v.setWidth 16)
  | .wr8L v => .write (.reg .L) (v.setWidth 16)
  | .rdflZF => .read (.flag .ZF)
  | .rdflNF => .read (.flag .NF)
  | .rdflHF => .read (.flag .HF)
  | .rdflCF => .read (.flag .CF)
  | .wrflZF v => .write (.flag .ZF) (v.setWidth 16)
  | .wrflNF v => .write (.flag .NF) (v.setWidth 16)
  | .wrflHF v => .write (.flag .HF) (v.setWidth 16)
  | .wrflCF v => .write (.flag .CF) (v.setWidth 16)
  | .rdpAF => .read (.pair .AF)
  | .rdpBC => .read (.pair .BC)
  | .rdpDE => .read (.pair .DE)
  | .rdpHL => .read (.pair .HL)
  | .rdwSP => .read .sp
  | .rdwPC => .read .pc
  | .wrpAF v => .write (.pair .AF) v
  | .wrpBC v => .write (.pair .BC) v
  | .wrpDE v => .write (.pair .DE) v
  | .wrpHL v => .write (.pair .HL) v
  | .wrwSP v => .write .sp v
  | .wrwPC v => .write .pc v

/-- The cells an operation writes, the third column of the table of R56. -/
def cellsWritten (i : Instr) : List CellName :=
  match accessOf i with
  | .nothing => []
  | .reset => [.a, .b, .c, .d, .e, .h, .l, .zf, .nf, .hf, .cf, .sp, .pc]
  | .read _ => []
  | .write it _ => it.cells

/-- The last operation of a list that writes a cell, if one does. -/
def lastWriter (n : CellName) (is : List Instr) : Option Instr := is.reverse.find? fun i => (cellsWritten i).contains n

/-- The step function of R12: a read returns a value and leaves S unchanged, a write changes S and returns none, NOP does
neither, RESET replaces S. -/
def opStep (x : Cells) (i : Instr) : Cells × Option Word16 :=
  match accessOf i with
  | .nothing => (x, none)
  | .reset => (Cells.reset, none)
  | .read it => (x, some (it.value x))
  | .write it v => (it.store x v, none)

/-- The operations of a list one after another, with what each returns (20_memory.md R61). -/
def opRun (x : Cells) : List Instr → Cells × List (Option Word16)
  | [] => (x, [])
  | i :: is => ((opRun (opStep x i).1 is).1, (opStep x i).2 :: (opRun (opStep x i).1 is).2)

end Sys2Proof.Machine
end

