-- ==== Sys2Proof/Machine/Pseudo.lean ====
section
/-! DEFINITION. The pseudo-operations of 30_encoding.md R84, each an exact expansion, and the direct-access operations by
item. -/

namespace Sys2Proof.Machine

/-- `WRFL.c b`. -/
def writeFlagOp (c : Cond) (b : Bit) : Instr :=
  match c with
  | .ZF => .wrflZF b
  | .NF => .wrflNF b
  | .HF => .wrflHF b
  | .CF => .wrflCF b

/-- `RDFL.c`. -/
def readFlagOp : Cond → Instr
  | .ZF => .rdflZF
  | .NF => .rdflNF
  | .HF => .rdflHF
  | .CF => .rdflCF

/-- `SETFL c`. -/
def setFlagOp (c : Cond) : Instr := writeFlagOp c 1

/-- `CLRFL c`. -/
def clearFlagOp (c : Cond) : Instr := writeFlagOp c 0

/-- `get_pair(X)`. -/
def getPairOp : Pair → Instr
  | .AF => .rdpAF
  | .BC => .rdpBC
  | .DE => .rdpDE
  | .HL => .rdpHL

/-- `set_pair(X, v)`. -/
def setPairOp (p : Pair) (v : Word16) : Instr :=
  match p with
  | .AF => .wrpAF v
  | .BC => .wrpBC v
  | .DE => .wrpDE v
  | .HL => .wrpHL v

/-- `new()`. -/
def newOp : Instr := .reset

/-- The document's `Flags::empty()`, used alone on the stored flags. -/
def emptyFlagsOp : Instr := .wr8F 0x00

/-- `SAVE`: the ten reads, in the order of 20_memory.md R53. -/
def saveOps : List Instr := [.rd8A, .rd8F, .rd8B, .rd8C, .rd8D, .rd8E, .rd8H, .rd8L, .rdwSP, .rdwPC]

/-- `RESTORE a f b c d e h l sp pc`: RESET, then the ten writes (70_reset_and_hazards.md R204). -/
def restoreOps (a f b c d e h l : Byte) (sp pc : Word16) : List Instr :=
  [.reset, .wr8A a, .wr8F f, .wr8B b, .wr8C c, .wr8D d, .wr8E e, .wr8H h, .wr8L l, .wrwSP sp, .wrwPC pc]

end Sys2Proof.Machine
end

