-- ==== Sys2Proof/Machine/Trace.lean ====
section
/-! DEFINITION. Runs of the port with what each cycle returned, in the terms the statements use. -/

namespace Sys2Proof.Machine

/-- What the cycle performed last returned: the value on `rdata`, or none (30_encoding.md R79). -/
def State.returned (s : State) : Option Word16 := if s.rvalid then some s.rdata else none

/-- `n` cycles: the state after them and what each returned, or none if one of them had no result. -/
def trace : Nat → State → Option (State × List (Option Word16))
  | 0, s => some (s, [])
  | n + 1, s =>
    match step s with
    | .next t =>
      match trace n t with
      | some (u, rs) => some (u, t.returned :: rs)
      | none => none
    | .fault _ => none
    | .refused _ => none

/-- The operations of a list performed one after another by `exec`, with what each returned. -/
def execAll : List Instr → State → Option (State × List (Option Word16))
  | [], s => some (s, [])
  | i :: is, s =>
    match exec i s with
    | .next t =>
      match execAll is t with
      | some (u, rs) => some (u, t.returned :: rs)
      | none => none
    | .fault _ => none
    | .refused _ => none

/-- The state with `cs` as the inputs of the cycles to come. -/
def State.withInputs (s : State) (cs : List Cycle) : State := { s with inputs := cs }

end Sys2Proof.Machine
end

