-- ==== Sys2Proof/Safety.lean ====
section
/-! DEFINITION. What the statements are made of: the two ways an operation completes, the invariant of the port's outputs, and
what a safe run is: one whose every cycle is legal, on a block that has been reset or is reset by its first cycle. -/

namespace Sys2Proof.Machine

/-- The operation completes as a read of the value `v`: `rvalid` = 1, `v` on `rdata`, and nothing else changes. -/
def Reads (i : Instr) (s : State) (v : Word16) : Prop :=
  exec i s = .next { s with rvalid := true, rdata := v }

/-- The operation completes as a write that leaves the thirteen cells as `x`: `rvalid` = 0, `rdata` = 0x0000, and nothing
else changes. -/
def Writes (i : Instr) (s : State) (x : Cells) : Prop :=
  exec i s = .next { s with cells := x, rvalid := false, rdata := 0x0000 }

/-- The operation completes, and what it leaves has the property `P`. -/
def After (i : Instr) (s : State) (P : State → Prop) : Prop := ∃ t, exec i s = .next t ∧ P t

/-- F as a byte, spelled as 10_state.md R30 spells it. -/
def flagByte (f : Flags) : Byte := f.zf ++ f.nf ++ f.hf ++ f.cf ++ 0b0000#4

/-- `ResetState`, cell by cell as 10_state.md R49 lists it. -/
def resetCells : Cells :=
  { a := 0x00, b := 0x00, c := 0x00, d := 0x00, e := 0x00, h := 0x00, l := 0x00,
    fl := { zf := 0, nf := 0, hf := 0, cf := 0 }, sp := 0xFFFE, pc := 0x0100 }

/-- The byte weight of a flag (43_direct_access.md R164). -/
def flagWeight : Cond → Byte
  | .ZF => 0x80
  | .NF => 0x40
  | .HF => 0x20
  | .CF => 0x10

/-- The value last written to a flag in a list of flag writes, 0 if none wrote it. -/
def lastFlag (c : Cond) (ws : List (Cond × Bit)) : Bit :=
  match ws.reverse.find? fun w => w.1 = c with
  | some w => w.2
  | none => 0

/-- The outputs of the port are as 30_encoding.md R79 says: `rdata` is 0x0000 when `rvalid` = 0, and the current value of one
of the block's items when `rvalid` = 1 (no read changes a cell, 10_state.md R48); a block before its first reset has answered
no read (70_reset_and_hazards.md R197). -/
def OutputsInv (s : State) : Prop :=
  (s.rvalid = false → s.rdata = 0x0000) ∧
  (s.rvalid = true → s.resetDone = true ∧ ∃ it : Item, s.rdata = it.value s.cells)

/-- Every cycle the master will present is legal, and the block has been reset or its first cycle resets it. -/
def SafeInputs (s : State) : Prop :=
  (∀ c ∈ s.inputs, c.wellFormed = true) ∧ (s.resetDone = true ∨ s.cycle.operation = .op .reset)

end Sys2Proof.Machine
end

