-- ==== Sys2Proof/Certificates/Slice0/Obligations.lean ====
section
/-! DEFINITION. The statements for the provers, from the spec's numbered rules. `Reads i s v` and `Writes i s x` each say the
whole next state, so a statement made of them is at once the operation's result, its frame and its completion. -/

open Sys2Proof Sys2Proof.Machine

/-- Command words written out digit by digit from the spec (the field extraction examples of 95 section 6 and one word
of each class) decode to the operations the spec gives for them; a reserved word decodes to nothing. Rests on
95_test_vectors.md section 6; 30_encoding.md R72; 30_encoding.md R77; 30_encoding.md R80. -/
def Obligations.FieldExamplesDecode : Prop :=
  decode 0x3B1234#22 = .op (.wrpHL 0x1234) ∧ decode 0x2B0001#22 = .op (.wrflCF 1) ∧ decode 0x110000#22 = .op .rd8F ∧
  decode 0x08FFFF#22 = .op .reset ∧ decode 0x35ABCD#22 = .op .rdwPC ∧ decode 0x000000#22 = .op .nop ∧
  decode 0x1AAB7F#22 = .op (.wr8B 0x7F) ∧ decode 0x220000#22 = .op .rdflHF ∧ decode 0x300000#22 = .op .rdpAF ∧
  decode 0x3C0001#22 = .op (.wrwSP 0x0001) ∧ decode 0x2BFFFE#22 = .op (.wrflCF 0) ∧ decode 0x3F0000#22 = .reserved 0x3F

/-- A command word put together from a select code and an operand gives both back; a select code put together from cls,
w and idx gives the three back; the encoder writes sel ++ wdata. Rests on 30_encoding.md R71; 30_encoding.md R72. -/
def Obligations.CommandWordFields : Prop :=
  (∀ (sel : Sel) (wdata : Word16), cwSel (sel ++ wdata) = sel ∧ cwWdata (sel ++ wdata) = wdata) ∧
  (∀ (cls : BitVec 2) (w : Bit) (idx : BitVec 3),
    selCls (cls ++ w ++ idx) = cls ∧ selW (cls ++ w ++ idx) = w ∧ selIdx (cls ++ w ++ idx) = idx) ∧
  (∀ i : Instr, encode i = i.sel ++ i.wdata)

/-- A cycle with rst = 1 spells RESET; otherwise with cmd_valid = 0 NOP; otherwise the operation of the opcode table row
with (cw & 0x3F0000) == match, and nothing exactly when the select code is reserved. The table has 38 rows with 38
different select codes, and 26 of the 64 codes are reserved. Formalises R77. -/
def Obligations.CycleSpellsItsOperation : Prop :=
  (∀ c : Cycle, c.operation =
    if c.rst then .op .reset
    else if !c.cmdValid then .op .nop
    else match decodeByTable (c.sel ++ c.wdata) with
      | some i => .op i
      | none => .reserved c.sel) ∧
  (∀ cw : CommandWord, decodeByTable cw = none ↔ reservedSel (cwSel cw) = true) ∧
  (∀ i : Instr, ∀ cw : CommandWord, decode cw = .op i → cwSel cw = i.sel) ∧
  opcodeTable.length = 38 ∧ (opcodeTable.map fun r => r.matchWord).Nodup ∧
  ((List.range 64).filter fun n => reservedSel (BitVec.ofNat 6 n)).length = 26

/-- A select code decodes to nothing exactly when it is one of the 26 listed; a cycle with rst = 0, cmd_valid = 1 and
such a code is refused (not a NOP, not a fault); the same code with cmd_valid = 0 performs NOP on a block that has
been reset, and with rst = 1 RESET. (That the refusal carries the code, and that it has this name on a block not yet
reset too, is the model's choice, log 4: the spec says only that a model must refuse.) Rests on 30_encoding.md R80;
30_encoding.md R70; 41_control.md R107; 93_implementation_defined.md U1. -/
def Obligations.ReservedCodesAreRefused : Prop :=
  (∀ (sel r : Sel) (wdata : Word16), decodeSel sel wdata = .reserved r ↔
    r = sel ∧ sel ∈ [0x01, 0x02, 0x03, 0x04, 0x05, 0x06, 0x07, 0x09, 0x0A, 0x0B, 0x0C, 0x0D, 0x0E, 0x0F,
      0x24, 0x25, 0x26, 0x27, 0x2C, 0x2D, 0x2E, 0x2F, 0x36, 0x37, 0x3E, 0x3F]) ∧
  (∀ (s : State) (sel : Sel) (wdata : Word16) (rest : List Cycle), reservedSel sel = true →
    step (s.withInputs (⟨false, true, sel, wdata⟩ :: rest)) = .refused (.reservedSelect sel) ∧
    (∀ v, step (s.withInputs (⟨true, v, sel, wdata⟩ :: rest)) = exec .reset (s.withInputs rest)) ∧
    (s.resetDone = true →
      step (s.withInputs (⟨false, false, sel, wdata⟩ :: rest)) = exec .nop (s.withInputs rest)))

/-- For every operation with every value of its operand, the decoder reads from the encoder's word that operation with
that operand, and so does the decoder written from the opcode table alone; the encoded word is one the owner may
issue. Rests on 30_encoding.md R71; 30_encoding.md R73; 30_encoding.md R74; 30_encoding.md R75; 30_encoding.md R76;
30_encoding.md R78. -/
def Obligations.DecodeEncodeRoundTrip : Prop :=
  ∀ i : Instr, decode (encode i) = .op i ∧ decodeByTable (encode i) = some i ∧ wellFormedWord (encode i) = true

/-- If a command word decodes to an operation, a row of the opcode table has its select code, the encoder gives the word
back with exactly the bits outside the select code and the row's operand bits cleared, and any word that agrees with
it on those bits decodes to the same operation. (That the encoder writes zeros there is the model's choice, log 6.)
Rests on 30_encoding.md R78; 30_encoding.md R81; opcode_table.json encoding patterns. -/
def Obligations.EncodeClearsOnlyIgnoredBits : Prop :=
  ∀ (cw : CommandWord) (i : Instr), decode cw = .op i → ∃ r ∈ opcodeTable,
    r.matchWord = cw &&& rowMask ∧ encode i = cw &&& (rowMask ||| r.operandBits) ∧
    ∀ cw', cw' &&& (rowMask ||| r.operandBits) = cw &&& (rowMask ||| r.operandBits) → decode cw' = .op i

/-- When the next cycle carries a command word that decodes to an operation, with rst = 0, on a block that has been
reset, the step is exec of that operation on the state with that cycle taken from the inputs; and the host's
withFetchWord presents exactly the instruction decodeTableWord reads. (The list of inputs is the model's form, log
1.) Rests on 30_encoding.md R67; 30_encoding.md R77; 70_reset_and_hazards.md R201. -/
def Obligations.StepPerformsThePresentedCommand : Prop :=
  (∀ (s : State) (rest : List Cycle) (cw : CommandWord) (i : Instr), s.resetDone = true → decode cw = .op i →
    step (s.withInputs (⟨false, true, cwSel cw, cwWdata cw⟩ :: rest)) = exec i (s.withInputs rest)) ∧
  (∀ (s : State) (rest : List Cycle) (i : Instr), s.resetDone = true →
    step (s.withInputs (i.command :: rest)) = exec i (s.withInputs rest)) ∧
  (∀ (s : State) (nbits w : Nat) (i : Instr), s.resetDone = true → decodeTableWord nbits w = some i →
    step (s.withFetchWord nbits w) = exec i s)

/-- On a block that has not been reset, a cycle that spells RESET performs it, and a cycle that spells any other
operation, an idle cycle included, is refused. (Of the two forms R197 offers the model takes the flag; log 3.) Rests
on 70_reset_and_hazards.md R197; 93_implementation_defined.md U2. -/
def Obligations.NoOperationBeforeTheFirstReset : Prop :=
  ∀ (s : State) (c : Cycle) (rest : List Cycle), s.resetDone = false →
    (c.operation = .op .reset → step (s.withInputs (c :: rest)) = exec .reset (s.withInputs rest)) ∧
    (∀ i, c.operation = .op i → i ≠ .reset → step (s.withInputs (c :: rest)) = .refused .beforeFirstReset) ∧
    step (s.withInputs []) = .refused .beforeFirstReset

/-- The select code 0x08 is RESET whatever wdata holds. From every state RESET completes with A = B = C = D = E = H = L
= 0, the four flags 0, SP = 0xFFFE, PC = 0x0100 and rvalid = 0; the result does not depend on the cells before; a
second RESET changes nothing; RESET from ResetState leaves the cells; a cycle with rst = 1 performs it; the worked
example holds. Formalises R105, R196. -/
def Obligations.ResetSetsEveryCell : Prop :=
  (∀ wdata : Word16, decode (0x08#6 ++ wdata) = .op .reset) ∧
  (∀ s : State, exec .reset s = .next { cells := resetCells, resetDone := true, rvalid := false, rdata := 0x0000, inputs := s.inputs }) ∧
  (∀ s : State, After .reset s fun t => exec .reset t = .next t ∧
    Reads .rdpAF t 0x0000 ∧ Reads .rdwSP t 0xFFFE ∧ Reads .rdwPC t 0x0100) ∧
  (∀ s s' : State, After .reset s fun t => After .reset s' fun t' => t.cells = t'.cells) ∧
  (∀ (s : State) (v : Bool) (sel : Sel) (wdata : Word16) (rest : List Cycle),
    step (s.withInputs (⟨true, v, sel, wdata⟩ :: rest)) = exec .reset (s.withInputs rest)) ∧
  (∀ s : State, s.cells = resetCells → After .reset s fun t => t.cells = s.cells)

/-- The select code 0x00 is NOP whatever wdata holds; NOP completes from every state with all cells unchanged and rvalid
= 0. On a block that has been reset, a cycle with rst = 0 and cmd_valid = 0 performs NOP whatever sel and wdata
hold, and any number of such cycles followed by a read returns what the read would have returned at once. Formalises
R106, R70. -/
def Obligations.NopChangesNothing : Prop :=
  (∀ wdata : Word16, decode (0x00#6 ++ wdata) = .op .nop) ∧
  (∀ s : State, Writes .nop s s.cells) ∧
  (∀ (s : State) (sel : Sel) (wdata : Word16) (rest : List Cycle), s.resetDone = true →
    step (s.withInputs (⟨false, false, sel, wdata⟩ :: rest)) = exec .nop (s.withInputs rest)) ∧
  (∀ (s : State) (idle : List Cycle) (i : Instr), s.resetDone = true →
    (∀ c ∈ idle, c.rst = false ∧ (c.cmdValid = true → c.sel = 0x00)) →
    ∃ t rs v, trace (idle.length + 1) (s.withInputs (idle ++ [i.command])) = some (t, rs ++ [v]) ∧
      rs = List.replicate idle.length none ∧ t.cells = (opStep s.cells i).1 ∧ v = (opStep s.cells i).2)

/-- A cycle with rst = 1 performs RESET whatever cmd_valid, sel and wdata hold, before the first reset too, with rvalid
= 0 and rdata = 0x0000, and so does the command code 0x08; rst held for any number of cycles, at least one, leaves
exactly the state that one such cycle leaves and returns nothing. The model takes the state before the first reset
as one that refuses everything else. Formalises R107, R179. -/
def Obligations.ResetPinWins : Prop :=
  (∀ (s : State) (v : Bool) (sel : Sel) (wdata : Word16) (rest : List Cycle),
    step (s.withInputs (⟨true, v, sel, wdata⟩ :: rest)) =
      .next { cells := resetCells, resetDone := true, rvalid := false, rdata := 0x0000, inputs := rest } ∧
    step (s.withInputs (⟨true, v, sel, wdata⟩ :: rest)) = step (s.withInputs (⟨false, true, 0x08, wdata⟩ :: rest))) ∧
  (∀ (s : State) (cs rest : List Cycle), cs ≠ [] → (∀ c ∈ cs, c.rst = true) →
    trace cs.length (s.withInputs (cs ++ rest)) =
      some ({ cells := resetCells, resetDone := true, rvalid := false, rdata := 0x0000, inputs := rest },
        List.replicate cs.length none))

/-- The state after reset has A = B = C = D = E = H = L = 0x00, the four flags 0, SP = 0xFFFE and PC = 0x0100, and every
read operation on it returns the value that follows: 0x0000 for the byte cells, F, the flags and the four views,
0xFFFE for SP, 0x0100 for PC; RESET leaves these cells. Formalises R49. -/
def Obligations.ResetStateValues : Prop :=
  Reads .rd8A State.reset 0x0000 ∧ Reads .rd8F State.reset 0x0000 ∧ Reads .rd8B State.reset 0x0000 ∧
  Reads .rd8C State.reset 0x0000 ∧ Reads .rd8D State.reset 0x0000 ∧ Reads .rd8E State.reset 0x0000 ∧
  Reads .rd8H State.reset 0x0000 ∧ Reads .rd8L State.reset 0x0000 ∧ Reads .rdflZF State.reset 0x0000 ∧
  Reads .rdflNF State.reset 0x0000 ∧ Reads .rdflHF State.reset 0x0000 ∧ Reads .rdflCF State.reset 0x0000 ∧
  Reads .rdpAF State.reset 0x0000 ∧ Reads .rdpBC State.reset 0x0000 ∧ Reads .rdpDE State.reset 0x0000 ∧
  Reads .rdpHL State.reset 0x0000 ∧ Reads .rdwSP State.reset 0xFFFE ∧ Reads .rdwPC State.reset 0x0100 ∧
  State.reset.cells = resetCells ∧ ∀ s : State, After .reset s fun t => t.cells = State.reset.cells

/-- For each of A, F, B, C, D, E, H, L: its select code decodes to RD8 of it whatever wdata holds; RD8 completes from
every state, returns the stored byte (for F the byte ZF ++ NF ++ HF ++ CF ++ 0b0000) with rdata[15:8] = 0x00 and
rvalid = 1, and changes no cell; the value is the half of its pair that RDP returns in the same state; after RESET
it is 0x0000. Formalises R135, R136, R137, R138, R139, R140, R141, R142. -/
def Obligations.ByteReadsReturnTheCell : Prop :=
  ∀ (s : State) (wdata : Word16),
  (decode (0x10#6 ++ wdata) = .op .rd8A ∧ Reads .rd8A s (0#8 ++ s.cells.a)) ∧
  (decode (0x11#6 ++ wdata) = .op .rd8F ∧ Reads .rd8F s (0#8 ++ flagByte s.cells.fl)) ∧
  (decode (0x12#6 ++ wdata) = .op .rd8B ∧ Reads .rd8B s (0#8 ++ s.cells.b)) ∧
  (decode (0x13#6 ++ wdata) = .op .rd8C ∧ Reads .rd8C s (0#8 ++ s.cells.c)) ∧
  (decode (0x14#6 ++ wdata) = .op .rd8D ∧ Reads .rd8D s (0#8 ++ s.cells.d)) ∧
  (decode (0x15#6 ++ wdata) = .op .rd8E ∧ Reads .rd8E s (0#8 ++ s.cells.e)) ∧
  (decode (0x16#6 ++ wdata) = .op .rd8H ∧ Reads .rd8H s (0#8 ++ s.cells.h)) ∧
  (decode (0x17#6 ++ wdata) = .op .rd8L ∧ Reads .rd8L s (0#8 ++ s.cells.l)) ∧
  Reads .rdpAF s (s.cells.a ++ flagByte s.cells.fl) ∧
  Reads .rdpBC s (s.cells.b ++ s.cells.c) ∧
  Reads .rdpDE s (s.cells.d ++ s.cells.e) ∧
  Reads .rdpHL s (s.cells.h ++ s.cells.l) ∧
  After .reset s fun t =>
    Reads .rd8A t 0x0000 ∧ Reads .rd8F t 0x0000 ∧ Reads .rd8B t 0x0000 ∧ Reads .rd8C t 0x0000 ∧
    Reads .rd8D t 0x0000 ∧ Reads .rd8E t 0x0000 ∧ Reads .rd8H t 0x0000 ∧ Reads .rd8L t 0x0000

/-- For each of A, F, B, C, D, E, H, L and every byte v: the select code with v in wdata[7:0] and anything in
wdata[15:8] decodes to WR8 with v; WR8 completes from every state, stores v in its cell (for F, bits 7 to 4 of v in
ZF, NF, HF, CF, bits 3 to 0 being discarded without any signal) and changes no other cell, no flag but for F, and
returns nothing; the next read of the cell and of its pair sees it, the other half being unchanged; for F, operands
that differ only in bits 3 to 0 act alike and the effect on the flags is that of WRP.AF with low byte v. Formalises
R143, R144, R145, R146, R147, R148, R149, R150. -/
def Obligations.ByteWritesStoreTheOperand : Prop :=
  ∀ (s : State) (u v : Byte),
  (decode (0x18#6 ++ (u ++ v : Word16)) = .op (.wr8A v) ∧ Writes (.wr8A v) s { s.cells with a := v } ∧
    After (.wr8A v) s fun t => Reads .rd8A t (0#8 ++ v) ∧ Reads .rdpAF t (v ++ flagByte s.cells.fl)) ∧
  (decode (0x19#6 ++ (u ++ v : Word16)) = .op (.wr8F v) ∧
    Writes (.wr8F v) s { s.cells with fl := ⟨v.extractLsb' 7 1, v.extractLsb' 6 1, v.extractLsb' 5 1, v.extractLsb' 4 1⟩ } ∧
    (After (.wr8F v) s fun t => Reads .rd8F t (0#8 ++ (v &&& 0xF0)) ∧ Reads .rdpAF t (s.cells.a ++ (v &&& 0xF0))) ∧
    (∀ v' : Byte, v' &&& 0xF0 = v &&& 0xF0 → exec (.wr8F v') s = exec (.wr8F v) s) ∧
    (∀ x : Byte, After (.wr8F v) s fun t => After (.wrpAF (x ++ v)) s fun t' => t.cells.fl = t'.cells.fl)) ∧
  (decode (0x1A#6 ++ (u ++ v : Word16)) = .op (.wr8B v) ∧ Writes (.wr8B v) s { s.cells with b := v } ∧
    After (.wr8B v) s fun t => Reads .rd8B t (0#8 ++ v) ∧ Reads .rdpBC t (v ++ s.cells.c)) ∧
  (decode (0x1B#6 ++ (u ++ v : Word16)) = .op (.wr8C v) ∧ Writes (.wr8C v) s { s.cells with c := v } ∧
    After (.wr8C v) s fun t => Reads .rd8C t (0#8 ++ v) ∧ Reads .rdpBC t (s.cells.b ++ v)) ∧
  (decode (0x1C#6 ++ (u ++ v : Word16)) = .op (.wr8D v) ∧ Writes (.wr8D v) s { s.cells with d := v } ∧
    After (.wr8D v) s fun t => Reads .rd8D t (0#8 ++ v) ∧ Reads .rdpDE t (v ++ s.cells.e)) ∧
  (decode (0x1D#6 ++ (u ++ v : Word16)) = .op (.wr8E v) ∧ Writes (.wr8E v) s { s.cells with e := v } ∧
    After (.wr8E v) s fun t => Reads .rd8E t (0#8 ++ v) ∧ Reads .rdpDE t (s.cells.d ++ v)) ∧
  (decode (0x1E#6 ++ (u ++ v : Word16)) = .op (.wr8H v) ∧ Writes (.wr8H v) s { s.cells with h := v } ∧
    After (.wr8H v) s fun t => Reads .rd8H t (0#8 ++ v) ∧ Reads .rdpHL t (v ++ s.cells.l)) ∧
  (decode (0x1F#6 ++ (u ++ v : Word16)) = .op (.wr8L v) ∧ Writes (.wr8L v) s { s.cells with l := v } ∧
    After (.wr8L v) s fun t => Reads .rd8L t (0#8 ++ v) ∧ Reads .rdpHL t (s.cells.h ++ v))

/-- For each of ZF, NF, HF, CF: its select code decodes to RDFL of it whatever wdata holds; RDFL completes from every
state, returns the flag in bit 0 with the other bits 0, and changes nothing; the flag is bit 7, 6, 5, 4 of what
RD8.F and RDP.AF return in the same state; after WR8.F with its weight alone it reads 1 and the three others 0;
after RESET it reads 0. Formalises R151, R152, R153, R154. -/
def Obligations.FlagReadsReturnTheBit : Prop :=
  ∀ (s : State) (wdata : Word16),
  (decode (0x20#6 ++ wdata) = .op .rdflZF ∧ Reads .rdflZF s (0#15 ++ s.cells.fl.zf)) ∧
  (decode (0x21#6 ++ wdata) = .op .rdflNF ∧ Reads .rdflNF s (0#15 ++ s.cells.fl.nf)) ∧
  (decode (0x22#6 ++ wdata) = .op .rdflHF ∧ Reads .rdflHF s (0#15 ++ s.cells.fl.hf)) ∧
  (decode (0x23#6 ++ wdata) = .op .rdflCF ∧ Reads .rdflCF s (0#15 ++ s.cells.fl.cf)) ∧
  Reads .rd8F s (0#8 ++ flagByte s.cells.fl) ∧
  Reads .rdpAF s (s.cells.a ++ flagByte s.cells.fl) ∧
  (After (.wr8F 0x80) s fun t => Reads .rdflZF t 1 ∧ Reads .rdflNF t 0 ∧ Reads .rdflHF t 0 ∧ Reads .rdflCF t 0) ∧
  (After (.wr8F 0x40) s fun t => Reads .rdflZF t 0 ∧ Reads .rdflNF t 1 ∧ Reads .rdflHF t 0 ∧ Reads .rdflCF t 0) ∧
  (After (.wr8F 0x20) s fun t => Reads .rdflZF t 0 ∧ Reads .rdflNF t 0 ∧ Reads .rdflHF t 1 ∧ Reads .rdflCF t 0) ∧
  (After (.wr8F 0x10) s fun t => Reads .rdflZF t 0 ∧ Reads .rdflNF t 0 ∧ Reads .rdflHF t 0 ∧ Reads .rdflCF t 1) ∧
  After .reset s fun t => Reads .rdflZF t 0 ∧ Reads .rdflNF t 0 ∧ Reads .rdflHF t 0 ∧ Reads .rdflCF t 0

/-- For each of ZF, NF, HF, CF and each bit b: the select code with b in wdata[0] and anything in wdata[15:1] decodes to
WRFL with b; WRFL completes from every state, stores b in that flag and changes nothing else; writing the value the
flag holds changes nothing; from ResetState, writing 1 makes RD8.F return the flag's weight and then writing 0 makes
it 0x0000. Formalises R155, R156, R157, R158. -/
def Obligations.FlagWritesStoreTheBit : Prop :=
  ∀ (s : State) (u : BitVec 15) (b : Bit),
  (decode (0x28#6 ++ (u ++ b : Word16)) = .op (.wrflZF b) ∧
    Writes (.wrflZF b) s { s.cells with fl := { s.cells.fl with zf := b } } ∧
    (s.cells.fl.zf = b → Writes (.wrflZF b) s s.cells) ∧
    (After .reset s fun r => After (.wrflZF 1) r fun t => Reads .rd8F t 0x0080 ∧
      After (.wrflZF 0) t fun t' => Reads .rd8F t' 0x0000)) ∧
  (decode (0x29#6 ++ (u ++ b : Word16)) = .op (.wrflNF b) ∧
    Writes (.wrflNF b) s { s.cells with fl := { s.cells.fl with nf := b } } ∧
    (s.cells.fl.nf = b → Writes (.wrflNF b) s s.cells) ∧
    (After .reset s fun r => After (.wrflNF 1) r fun t => Reads .rd8F t 0x0040 ∧
      After (.wrflNF 0) t fun t' => Reads .rd8F t' 0x0000)) ∧
  (decode (0x2A#6 ++ (u ++ b : Word16)) = .op (.wrflHF b) ∧
    Writes (.wrflHF b) s { s.cells with fl := { s.cells.fl with hf := b } } ∧
    (s.cells.fl.hf = b → Writes (.wrflHF b) s s.cells) ∧
    (After .reset s fun r => After (.wrflHF 1) r fun t => Reads .rd8F t 0x0020 ∧
      After (.wrflHF 0) t fun t' => Reads .rd8F t' 0x0000)) ∧
  (decode (0x2B#6 ++ (u ++ b : Word16)) = .op (.wrflCF b) ∧
    Writes (.wrflCF b) s { s.cells with fl := { s.cells.fl with cf := b } } ∧
    (s.cells.fl.cf = b → Writes (.wrflCF b) s s.cells) ∧
    (After .reset s fun r => After (.wrflCF 1) r fun t => Reads .rd8F t 0x0010 ∧
      After (.wrflCF 0) t fun t' => Reads .rd8F t' 0x0000))

/-- The select codes 0x34, 0x35, 0x3C, 0x3D decode to RDW.SP, RDW.PC (whatever wdata holds), WRW.SP, WRW.PC with all of
wdata. Each completes from every state: RDW returns all 16 bits and changes nothing; WRW stores the operand exactly,
odd or even, and changes no other cell; neither advances PC. After RESET SP reads 0xFFFE and PC 0x0100. Formalises
R159, R160, R161, R162. -/
def Obligations.WideCellsArePlainStores : Prop :=
  ∀ (s : State) (v : Word16),
  decode (0x34#6 ++ v) = .op .rdwSP ∧ decode (0x35#6 ++ v) = .op .rdwPC ∧
  decode (0x3C#6 ++ v) = .op (.wrwSP v) ∧ decode (0x3D#6 ++ v) = .op (.wrwPC v) ∧
  Reads .rdwSP s s.cells.sp ∧ Reads .rdwPC s s.cells.pc ∧
  Writes (.wrwSP v) s { s.cells with sp := v } ∧ Writes (.wrwPC v) s { s.cells with pc := v } ∧
  (After (.wrwSP v) s fun t => Reads .rdwSP t v ∧ Reads .rdwPC t s.cells.pc) ∧
  (After (.wrwPC v) s fun t => Reads .rdwPC t v ∧ Reads .rdwSP t s.cells.sp) ∧
  After .reset s fun t => Reads .rdwSP t 0xFFFE ∧ Reads .rdwPC t 0x0100

/-- For each pair its select code decodes to RDP of it whatever wdata holds; RDP completes from every state, returns the
first-named register as the high byte and the second (for AF, the flag byte with its low nibble zero) as the low
byte, and changes nothing; after RESET it returns 0x0000; every 16-bit value is a possible result of BC, DE and HL.
Formalises R118, R119, R120, R121. -/
def Obligations.PairReadsCompose : Prop :=
  ∀ (s : State) (wdata : Word16),
  (decode (0x30#6 ++ wdata) = .op .rdpAF ∧ Reads .rdpAF s (s.cells.a ++ flagByte s.cells.fl)) ∧
  (decode (0x31#6 ++ wdata) = .op .rdpBC ∧ Reads .rdpBC s (s.cells.b ++ s.cells.c)) ∧
  (decode (0x32#6 ++ wdata) = .op .rdpDE ∧ Reads .rdpDE s (s.cells.d ++ s.cells.e)) ∧
  (decode (0x33#6 ++ wdata) = .op .rdpHL ∧ Reads .rdpHL s (s.cells.h ++ s.cells.l)) ∧
  (After .reset s fun t => Reads .rdpAF t 0x0000 ∧ Reads .rdpBC t 0x0000 ∧ Reads .rdpDE t 0x0000 ∧ Reads .rdpHL t 0x0000) ∧
  ∀ hi lo : Byte, (∃ t : State, Reads .rdpBC t (hi ++ lo)) ∧
    (∃ t : State, Reads .rdpDE t (hi ++ lo)) ∧
    (∃ t : State, Reads .rdpHL t (hi ++ lo))

/-- For each pair and every 16-bit v its select code with v decodes to WRP with v; WRP completes from every state in one
step with v[15:8] in the first-named cell and v[7:0] in the second (for AF: v[7], v[6], v[5], v[4] in ZF, NF, HF,
CF, v[3:0] discarded) and changes nothing else, no flag but for AF; operands of WRP.AF that differ only in bits 3 to
0 act alike; the worked examples and corner cases hold. Formalises R122, R123, R124, R125. -/
def Obligations.PairWritesSplit : Prop :=
  ∀ (s : State) (v : Word16),
  (decode (0x38#6 ++ v) = .op (.wrpAF v) ∧
    Writes (.wrpAF v) s { s.cells with
      a := v.extractLsb' 8 8
      fl := ⟨v.extractLsb' 7 1, v.extractLsb' 6 1, v.extractLsb' 5 1, v.extractLsb' 4 1⟩ } ∧
    ∀ v' : Word16, v' &&& 0xFFF0 = v &&& 0xFFF0 → exec (.wrpAF v') s = exec (.wrpAF v) s) ∧
  (decode (0x39#6 ++ v) = .op (.wrpBC v) ∧
    Writes (.wrpBC v) s { s.cells with b := v.extractLsb' 8 8, c := v.extractLsb' 0 8 }) ∧
  (decode (0x3A#6 ++ v) = .op (.wrpDE v) ∧
    Writes (.wrpDE v) s { s.cells with d := v.extractLsb' 8 8, e := v.extractLsb' 0 8 }) ∧
  (decode (0x3B#6 ++ v) = .op (.wrpHL v) ∧
    Writes (.wrpHL v) s { s.cells with h := v.extractLsb' 8 8, l := v.extractLsb' 0 8 }) ∧
  (After (.wrpAF 0x1234) s fun t => t.cells.a = 0x12 ∧ t.cells.fl = ⟨0, 0, 1, 1⟩) ∧
  (After (.wrpHL 0x1234) s fun t => t.cells.h = 0x12 ∧ t.cells.l = 0x34) ∧
  (After (.wrpAF 0x000F) s fun t => Reads .rdpAF t 0x0000) ∧
  (After (.wrpAF 0xFFFF) s fun t => Reads .rdpAF t 0xFFF0) ∧
  (After (.wrpBC 0xFFFF) s fun t => Reads .rdpBC t 0xFFFF) ∧
  After (.wrpDE 0x0001) s fun t => Reads .rd8D t 0x0000 ∧ Reads .rd8E t 0x0001

/-- flags_empty has no condition set and packs to 0x00; flags_contains returns the named field and is bit bitpos(c) of
the packed byte; flags_from_byte takes bits 7, 6, 5, 4 and nothing else; flags_to_byte is ZF ++ NF ++ HF ++ CF ++
0b0000, equally the or of the four shifted bits; the corner cases and examples hold. Formalises R91, R92, R93, R94. -/
def Obligations.FlagFunctionsPackAndUnpack : Prop :=
  (flagsEmpty = ⟨0, 0, 0, 0⟩ ∧ flagsToByte flagsEmpty = 0x00 ∧ ∀ c, flagsContains flagsEmpty c = 0) ∧
  (∀ z n h c : Bit, flagsContains ⟨z, n, h, c⟩ .ZF = z ∧ flagsContains ⟨z, n, h, c⟩ .NF = n ∧
    flagsContains ⟨z, n, h, c⟩ .HF = h ∧ flagsContains ⟨z, n, h, c⟩ .CF = c) ∧
  (bitpos .ZF = 7 ∧ bitpos .NF = 6 ∧ bitpos .HF = 5 ∧ bitpos .CF = 4) ∧
  (∀ (f : Flags) (c : Cond), flagsContains f c = (flagsToByte f).extractLsb' (bitpos c) 1) ∧
  (∀ b : Byte, flagsFromByte b = ⟨b.extractLsb' 7 1, b.extractLsb' 6 1, b.extractLsb' 5 1, b.extractLsb' 4 1⟩) ∧
  (flagsFromByte 0x0F = flagsEmpty ∧ flagsFromByte 0x00 = flagsEmpty ∧ flagsFromByte 0xFF = ⟨1, 1, 1, 1⟩ ∧
    flagsFromByte 0xF0 = ⟨1, 1, 1, 1⟩ ∧ flagsFromByte 0x34 = ⟨0, 0, 1, 1⟩) ∧
  (∀ z n h c : Bit, flagsToByte ⟨z, n, h, c⟩ = z ++ n ++ h ++ c ++ 0b0000#4 ∧
    flagsToByte ⟨z, n, h, c⟩ =
      (z.setWidth 8 <<< 7) ||| (n.setWidth 8 <<< 6) ||| (h.setWidth 8 <<< 5) ||| (c.setWidth 8 <<< 4)) ∧
  (∀ f g : Flags, flagsToByte f = flagsToByte g → f = g)

/-- flags_with replaces the named field by the bit and leaves the three others; reading the field back gives the bit,
any other field is unchanged, the later of two writes to one condition wins, writes to different conditions commute;
from empty, CF set alone packs to 0x10. Formalises R95. -/
def Obligations.FlagWithReplacesOneField : Prop :=
  (∀ (z n h c b : Bit), flagsWith ⟨z, n, h, c⟩ .ZF b = ⟨b, n, h, c⟩ ∧ flagsWith ⟨z, n, h, c⟩ .NF b = ⟨z, b, h, c⟩ ∧
    flagsWith ⟨z, n, h, c⟩ .HF b = ⟨z, n, b, c⟩ ∧ flagsWith ⟨z, n, h, c⟩ .CF b = ⟨z, n, h, b⟩) ∧
  (∀ (f : Flags) (c d : Cond) (b b' : Bit),
    flagsContains (flagsWith f c b) c = b ∧
    (d ≠ c → flagsContains (flagsWith f c b) d = flagsContains f d) ∧
    flagsWith (flagsWith f c b) c b' = flagsWith f c b' ∧
    (d ≠ c → flagsWith (flagsWith f c b) d b' = flagsWith (flagsWith f d b') c b)) ∧
  flagsWith flagsEmpty .CF 1 = ⟨0, 0, 0, 1⟩ ∧ flagsToByte (flagsWith flagsEmpty .CF 1) = 0x10

/-- For every byte b, packing the unpacked byte gives b & 0xF0, which is b exactly when the low nibble of b is zero; for
every Flags value, unpacking the packed byte gives it back. Formalises R96. -/
def Obligations.FlagConversionsMaskTheLowNibble : Prop :=
  (∀ b : Byte, flagsToByte (flagsFromByte b) = b &&& 0xF0 ∧
    (flagsToByte (flagsFromByte b) = b ↔ b.extractLsb' 0 4 = 0)) ∧
  (∀ f : Flags, flagsFromByte (flagsToByte f) = f)

/-- compose(hi, lo) is hi ++ lo, equally hi widened to 16 bits, shifted left by 8, or-ed with lo; split_hi is v[15:8],
equally the truncation of v >> 8, and split_lo is v[7:0], equally the truncation of v & 0x00FF; composing the two
halves of any v gives v and splitting any composition gives the two bytes; the corner cases and the examples hold.
Formalises R115, R116. -/
def Obligations.ComposeAndSplitAreInverse : Prop :=
  (∀ hi lo : Byte, compose hi lo = hi ++ lo ∧
    compose hi lo = (hi.setWidth 16 <<< 8) ||| lo.setWidth 16 ∧
    splitHi (compose hi lo) = hi ∧ splitLo (compose hi lo) = lo) ∧
  (∀ v : Word16, splitHi v = v.extractLsb' 8 8 ∧ splitHi v = (v >>> 8).truncate 8 ∧
    splitLo v = v.extractLsb' 0 8 ∧ splitLo v = v.truncate 8 ∧ splitLo v = (v &&& 0x00FF).truncate 8 ∧
    compose (splitHi v) (splitLo v) = v) ∧
  (compose 0x00 0x00 = 0x0000 ∧ compose 0xFF 0xFF = 0xFFFF ∧ compose 0x00 0xFF = 0x00FF ∧ compose 0xFF 0x00 = 0xFF00 ∧
    compose 0x80 0x00 = 0x8000 ∧ compose 0x12 0x34 = 0x1234) ∧
  (splitHi 0x00FF = 0x00 ∧ splitLo 0x00FF = 0xFF ∧ splitHi 0xFF00 = 0xFF ∧ splitLo 0xFF00 = 0x00 ∧
    splitHi 0x1234 = 0x12 ∧ splitLo 0x1234 = 0x34)

/-- From every state and for all 16-bit v, WRP then RDP of BC, DE or HL returns v, RD8 of its two cells returns the two
halves, the three other pairs read as before and SP and PC are unchanged; writing the two cells directly and reading
the pair gives their composition. Formalises R126. -/
def Obligations.ExactPairsRoundTrip : Prop :=
  ∀ (s : State) (v : Word16) (hi lo : Byte),
  (After (.wrpBC v) s fun t => Reads .rdpBC t v ∧ Reads .rd8B t (0#8 ++ v.extractLsb' 8 8) ∧
    Reads .rd8C t (0#8 ++ v.extractLsb' 0 8) ∧
    (∃ x y z, Reads .rdpAF t x ∧ Reads .rdpAF s x ∧ Reads .rdpDE t y ∧ Reads .rdpDE s y ∧ Reads .rdpHL t z ∧ Reads .rdpHL s z) ∧
    t.cells.sp = s.cells.sp ∧ t.cells.pc = s.cells.pc) ∧
  (After (.wr8B hi) s fun r => After (.wr8C lo) r fun t => Reads .rdpBC t (hi ++ lo)) ∧
  (After (.wrpDE v) s fun t => Reads .rdpDE t v ∧ Reads .rd8D t (0#8 ++ v.extractLsb' 8 8) ∧
    Reads .rd8E t (0#8 ++ v.extractLsb' 0 8) ∧
    (∃ x y z, Reads .rdpAF t x ∧ Reads .rdpAF s x ∧ Reads .rdpBC t y ∧ Reads .rdpBC s y ∧ Reads .rdpHL t z ∧ Reads .rdpHL s z) ∧
    t.cells.sp = s.cells.sp ∧ t.cells.pc = s.cells.pc) ∧
  (After (.wr8D hi) s fun r => After (.wr8E lo) r fun t => Reads .rdpDE t (hi ++ lo)) ∧
  (After (.wrpHL v) s fun t => Reads .rdpHL t v ∧ Reads .rd8H t (0#8 ++ v.extractLsb' 8 8) ∧
    Reads .rd8L t (0#8 ++ v.extractLsb' 0 8) ∧
    (∃ x y z, Reads .rdpAF t x ∧ Reads .rdpAF s x ∧ Reads .rdpBC t y ∧ Reads .rdpBC s y ∧ Reads .rdpDE t z ∧ Reads .rdpDE s z) ∧
    t.cells.sp = s.cells.sp ∧ t.cells.pc = s.cells.pc) ∧
  (After (.wr8H hi) s fun r => After (.wr8L lo) r fun t => Reads .rdpHL t (hi ++ lo))

/-- From every state and for all 16-bit v, WRP.AF v then RDP.AF returns v & 0xFFF0, equally (v & 0xFF00) | (v & 0x00F0),
and that is v exactly when v[3:0] = 0. Formalises R127. -/
def Obligations.AfRoundTripIsMasked : Prop :=
  ∀ (s : State) (v : Word16),
  (After (.wrpAF v) s fun t => Reads .rdpAF t (v &&& 0xFFF0) ∧ Reads .rdpAF t ((v &&& 0xFF00) ||| (v &&& 0x00F0))) ∧
  ((After (.wrpAF v) s fun t => Reads .rdpAF t v) ↔ v.extractLsb' 0 4 = 0)

/-- From every state, for each pair and any list of read operations of any kind: reading the pair, performing the list,
and reading the pair again completes, returns the same value both times, and leaves the cells unchanged. Formalises
R128. -/
def Obligations.PairReadsAreIdempotent : Prop :=
  ∀ (s : State) (p : Pair) (is : List Instr), (∀ i ∈ is, ∃ it, accessOf i = .read it) →
    ∃ t v rs, execAll (getPairOp p :: (is ++ [getPairOp p])) s = some (t, some v :: (rs ++ [some v])) ∧
      rs.length = is.length ∧ t.cells = s.cells

/-- For every write operation and the read of the same item, from every state: the write completes, and the read after
it returns the operand zero-extended, for F masked by 0xF0 and for AF masked by 0xFFF0. Rests on 43_direct_access.md
R163 (1); 42_pair_access.md R126; 42_pair_access.md R127. -/
def Obligations.WriteThenReadReturnsTheOperand : Prop :=
  ∀ (s : State) (w r : Instr) (it : Item) (v : Word16), accessOf w = .write it v → accessOf r = .read it →
    After w s fun t => Reads r t (v &&& match it with
      | .f => 0x00F0
      | .pair .AF => 0xFFF0
      | _ => 0xFFFF)

/-- Two different items share a cell exactly in the cases listed: A and F and the four flags each with AF, the four
flags each with F, B and C with BC, D and E with DE, H and L with HL. From every state, a write to an item changes
the value read from no item that shares no cell with it. Rests on 43_direct_access.md R163 (2); 20_memory.md R56. -/
def Obligations.WritesKeepUnsharedItems : Prop :=
  (∀ i j : Item, i.shares j = true ↔ i = j ∨ ∃ p ∈ [(i, j), (j, i)], p ∈ [
    (Item.reg .A, Item.pair .AF), (.f, .pair .AF), (.flag .ZF, .pair .AF), (.flag .NF, .pair .AF), (.flag .HF, .pair .AF),
    (.flag .CF, .pair .AF), (.flag .ZF, .f), (.flag .NF, .f), (.flag .HF, .f), (.flag .CF, .f),
    (.reg .B, .pair .BC), (.reg .C, .pair .BC), (.reg .D, .pair .DE), (.reg .E, .pair .DE),
    (.reg .H, .pair .HL), (.reg .L, .pair .HL)]) ∧
  (∀ (s : State) (w r : Instr) (it jt : Item) (v : Word16), accessOf w = .write it v → accessOf r = .read jt →
    it.shares jt = false → ∃ u, Reads r s u ∧ After w s fun t => Reads r t u)

/-- From every state: two writes to items that share no cell leave the same state in either order; two writes to the
same item leave the state the later alone leaves. Rests on 43_direct_access.md R163 (3); 43_direct_access.md R163
(4). -/
def Obligations.WritesCommuteOrLastWins : Prop :=
  ∀ (s : State) (w₁ w₂ : Instr) (i₁ i₂ : Item) (v₁ v₂ : Word16), accessOf w₁ = .write i₁ v₁ → accessOf w₂ = .write i₂ v₂ →
    (i₁.shares i₂ = false → After w₁ s fun t => After w₂ s fun u => exec w₂ t = exec w₁ u) ∧
    (i₁ = i₂ → After w₁ s fun t => exec w₂ t = exec w₂ s)

/-- From ResetState, after any list of WRFL operations on any conditions with any bits, RD8.F returns the bitwise OR of
the weights (0x80, 0x40, 0x20, 0x10) of the flags last written to 1, and each RDFL returns the bit last written to
its flag (0 if none was). Formalises R164. -/
def Obligations.FlagWritesAreIndependent : Prop :=
  ∀ ws : List (Cond × Bit), ∃ t rs, execAll (ws.map fun w => writeFlagOp w.1 w.2) State.reset = some (t, rs) ∧
    (∀ c, Reads (readFlagOp c) t (0#15 ++ lastFlag c ws)) ∧
    Reads .rd8F t (0#8 ++ (([Cond.ZF, .NF, .HF, .CF].filter fun c => lastFlag c ws = 1).foldl (fun b c => b ||| flagWeight c) 0x00))

/-- Every operation completes; one that changes a flag is WRFL, WR8.F, WRP.AF or RESET; WRFL.c leaves the three other
flags; no operation but RDFL, RD8.F and RDP.AF returns anything that depends on a flag, and none changes any other
cell depending on a flag. Setting only Carry from ResetState leaves the three others reading 0 and F reading 0x10.
Formalises R36. -/
def Obligations.FlagsChangeOnlyByFlagOperations : Prop :=
  (∀ (i : Instr) (s : State), After i s fun t => t.cells.fl = s.cells.fl ∨ i = .reset ∨ (∃ v, i = .wr8F v) ∨ (∃ v, i = .wrpAF v) ∨
    ∃ c b, i = writeFlagOp c b) ∧
  (∀ (s : State) (c d : Cond) (b : Bit), d ≠ c → After (writeFlagOp c b) s fun t =>
    flagsContains t.cells.fl d = flagsContains s.cells.fl d) ∧
  (∀ (i : Instr) (s : State) (g : Flags), i ≠ .rd8F → i ≠ .rdpAF → (∀ c, i ≠ readFlagOp c) →
    After i s fun t => After i { s with cells := { s.cells with fl := g } } fun u =>
      t.returned = u.returned ∧ { t.cells with fl := u.cells.fl } = u.cells) ∧
  (∀ s : State, After .reset s fun r => After (.wrflCF 1) r fun t => Reads .rdflZF t 0 ∧ Reads .rdflNF t 0 ∧ Reads .rdflHF t 0 ∧
    Reads .rdflCF t 1 ∧ Reads .rd8F t 0x0010)

/-- Every operation completes, and one that changes A, B, C, D, E, H or L is RESET, the WR8 of that cell or the WRP of
its pair; one that changes SP is RESET or WRW.SP; one that changes PC is RESET or WRW.PC, so the block never
advances PC. Rests on 10_state.md R22; 10_state.md R23 to R29; 10_state.md R38; 10_state.md R39; 20_memory.md R56. -/
def Obligations.CellsChangeOnlyByTheirWriters : Prop :=
  ∀ (i : Instr) (s : State), After i s fun t =>
    (t.cells.a = s.cells.a ∨ i = .reset ∨ (∃ v, i = .wr8A v) ∨ ∃ v, i = .wrpAF v) ∧
    (t.cells.b = s.cells.b ∨ i = .reset ∨ (∃ v, i = .wr8B v) ∨ ∃ v, i = .wrpBC v) ∧
    (t.cells.c = s.cells.c ∨ i = .reset ∨ (∃ v, i = .wr8C v) ∨ ∃ v, i = .wrpBC v) ∧
    (t.cells.d = s.cells.d ∨ i = .reset ∨ (∃ v, i = .wr8D v) ∨ ∃ v, i = .wrpDE v) ∧
    (t.cells.e = s.cells.e ∨ i = .reset ∨ (∃ v, i = .wr8E v) ∨ ∃ v, i = .wrpDE v) ∧
    (t.cells.h = s.cells.h ∨ i = .reset ∨ (∃ v, i = .wr8H v) ∨ ∃ v, i = .wrpHL v) ∧
    (t.cells.l = s.cells.l ∨ i = .reset ∨ (∃ v, i = .wr8L v) ∨ ∃ v, i = .wrpHL v) ∧
    (t.cells.sp = s.cells.sp ∨ i = .reset ∨ ∃ v, i = .wrwSP v) ∧
    (t.cells.pc = s.cells.pc ∨ i = .reset ∨ ∃ v, i = .wrwPC v)

/-- Every operation with every operand completes from every state: no operation fails, and none has a precondition on
the stored state. Formalises R9. -/
def Obligations.EveryOperationCompletes : Prop :=
  ∀ (i : Instr) (s : State), ∃ t, exec i s = .next t

/-- Every operation performed twice leaves and returns what it did once. A read changes no cell. From any two states,
each cell after the same operation either is what it was in both, or holds the same value in both. Formalises R58. -/
def Obligations.OperationsAreIdempotentAndWritesIgnoreTheState : Prop :=
  (∀ (i : Instr) (s : State), After i s fun t => exec i t = .next t) ∧
  (∀ (i : Instr) (it : Item) (s : State), accessOf i = .read it → After i s fun t => t.cells = s.cells) ∧
  (∀ (i : Instr) (s s' : State) (n : CellName), After i s fun t => After i s' fun t' =>
    (t.cells.get n = s.cells.get n ∧ t'.cells.get n = s'.cells.get n) ∨ t.cells.get n = t'.cells.get n)

/-- After any list of operations from any state, all complete, and each of the thirteen cells holds what the last
operation of the list that writes it gives it from any state (for RESET the reset value), or what it held before if
none writes it. Rests on 20_memory.md R61; 70_reset_and_hazards.md R200. -/
def Obligations.EachCellHoldsItsLastWrite : Prop :=
  ∀ (is : List Instr) (s : State), ∃ t rs, execAll is s = some (t, rs) ∧ rs.length = is.length ∧
    ∀ n : CellName, match lastWriter n is with
      | some i => ∀ s' : State, After i s' fun u => t.cells.get n = u.cells.get n
      | none => t.cells.get n = s.cells.get n

/-- Two states with the same thirteen cells and the same flag "not yet reset" that are given the same inputs in this
cycle, whatever the last cycle's outputs were and whatever cycles follow, take the same step: the same refusal, or
next states with the same cells, flag and outputs, each with its own later cycles still to come. With the same later
cycles too (none at all included, which is an idle cycle) the step is the same. (The list of inputs is the model's
form, log 1.) Rests on 10_state.md R46; 10_state.md R48; 60_exceptions.md R183; 70_reset_and_hazards.md R201. -/
def Obligations.StepsDependOnlyOnCellsAndCommand : Prop :=
  (∀ (s s' : State) (c : Cycle) (rest rest' : List Cycle), s.cells = s'.cells → s.resetDone = s'.resetDone →
    (∃ r, step (s.withInputs (c :: rest)) = .refused r ∧ step (s'.withInputs (c :: rest')) = .refused r) ∨
    ∃ t t', step (s.withInputs (c :: rest)) = .next t ∧ step (s'.withInputs (c :: rest')) = .next t' ∧
      t.cells = t'.cells ∧ t.resetDone = t'.resetDone ∧ t.rvalid = t'.rvalid ∧ t.rdata = t'.rdata ∧
      t.inputs = rest ∧ t'.inputs = rest') ∧
  (∀ s s' : State, s.cells = s'.cells → s.resetDone = s'.resetDone → s.inputs = s'.inputs → step s = step s')

/-- From every state in which rdata is 0x0000 when rvalid = 0, and, when rvalid = 1, the block has been reset and rdata
is the current value of one of the block's items, a step that answers a next state leads to such a state again,
takes exactly one cycle from the inputs and leaves a block that has been reset; and in it F and AF read with a zero
low nibble. Rests on 30_encoding.md R79; 10_state.md R48; 10_state.md R45; 70_reset_and_hazards.md R197. -/
def Obligations.OutputsInvariantKept : Prop :=
  ∀ s t : State, OutputsInv s → step s = .next t →
    OutputsInv t ∧ t.resetDone = true ∧ t.inputs = s.inputs.tail ∧
    (∃ v, Reads .rd8F t v ∧ v &&& 0xFF0F = 0) ∧ ∃ v, Reads .rdpAF t v ∧ v &&& 0x000F = 0

/-- The state after reset meets the invariant of the outputs (that its rvalid and rdata are 0 is read from the cycle
that resets, log 2). Rests on 41_control.md R107; 30_encoding.md R79; 10_state.md R49. -/
def Obligations.OutputsInvariantAtReset : Prop :=
  OutputsInv State.reset

/-- From every state in which every cycle to come is legal (with cmd_valid = 1 and rst = 0, sel holds a defined select
code) and which has been reset or is reset by its next cycle, the run goes on for any number of cycles: each cycle
has a result; and conversely a step from a state whose next cycle is not legal is refused. (The model's choices:
when the cycles to come are used up the run goes on with idle cycles, log 1; the refusal carries the code and has
this name on a block not yet reset too, log 4.) Rests on 70_reset_and_hazards.md R202; 60_exceptions.md R175;
30_encoding.md R80; 70_reset_and_hazards.md R197. -/
def Obligations.SafeRunsNeverStop : Prop :=
  (∀ (n : Nat) (s : State), SafeInputs s → ∃ t rs, trace n s = some (t, rs) ∧ rs.length = n ∧ SafeInputs t) ∧
  (∀ (s : State) (c : Cycle) (rest : List Cycle), c.wellFormed = false →
    step (s.withInputs (c :: rest)) = .refused (.reservedSelect c.sel))

/-- For every sequence of cycles that spell a sequence of operations, from every state that has been reset or whose
first operation is RESET, with any further cycles behind them: the run of the port over them has a result, the
thirteen cells after it are those the operation level's step function gives for the sequence, what the cycles
returned are its returned values, and exactly those cycles have been taken. Formalises R67. -/
def Obligations.PortRefinesOperationLevel : Prop :=
  ∀ (s : State) (cs rest : List Cycle) (is : List Instr), cs.map Cycle.operation = is.map Decoded.op →
    s.resetDone = true ∨ is.head? = some .reset →
    ∃ t, trace cs.length (s.withInputs (cs ++ rest)) = some (t, (opRun s.cells is).2) ∧
      t.cells = (opRun s.cells is).1 ∧ t.inputs = rest

/-- Every combination of values of the thirteen cells is what some sequence of legal cycles leaves, from the state after
reset; in every state F and AF read with bits 3 to 0 zero, writing a pair and reading it loses nothing but those
bits, and each step takes one cycle of the one master. (That the master is one list of cycles of which a step takes
the first is the model's form, logs 1 and 9.) Rests on 10_state.md R45; 20_memory.md R64; 30_encoding.md R67. -/
def Obligations.EveryCellContentIsReachable : Prop :=
  (∀ x : Cells, ∃ cs t rs, (∀ c ∈ cs, c.wellFormed = true) ∧
    trace cs.length (State.reset.withInputs cs) = some (t, rs) ∧ t.cells = x ∧ t.inputs = []) ∧
  (∀ s : State, ∃ f af, Reads .rd8F s f ∧ f &&& 0x000F = 0 ∧ Reads .rdpAF s af ∧ af &&& 0x000F = 0) ∧
  (∀ (s : State) (p : Pair) (v : Word16), After (setPairOp p v) s fun t =>
    Reads (getPairOp p) t (if p = .AF then v &&& 0xFFF0 else v)) ∧
  (∀ s t : State, step s = .next t → t.inputs = s.inputs.tail)

/-- On a block that has been reset, the ten reads of SAVE return A, F as a byte, B, C, D, E, H, L, SP, PC in that order
and change no cell. On any block, reset or not, RESTORE of those values (RESET, then the ten writes) leaves exactly
the saved cells; RESTORE with an f whose low nibble is not zero leaves the same state as with f & 0xF0; the ten
writes in any order, and equally the four pair writes with the two wide writes, leave what they leave in the listed
order. Formalises R204. -/
def Obligations.SaveThenRestoreGivesTheStateBack : Prop :=
  (∀ (s : State) (rest : List Cycle), s.resetDone = true →
    ∃ t, trace 10 (s.withInputs (saveOps.map Instr.command ++ rest)) =
      some (t, [some (0#8 ++ s.cells.a), some (0#8 ++ flagByte s.cells.fl), some (0#8 ++ s.cells.b), some (0#8 ++ s.cells.c),
        some (0#8 ++ s.cells.d), some (0#8 ++ s.cells.e), some (0#8 ++ s.cells.h), some (0#8 ++ s.cells.l),
        some s.cells.sp, some s.cells.pc]) ∧ t.cells = s.cells ∧ t.inputs = rest) ∧
  (∀ (x : Cells) (s : State) (rest : List Cycle), ∃ t rs,
    trace 11 (s.withInputs ((restoreOps x.a (flagByte x.fl) x.b x.c x.d x.e x.h x.l x.sp x.pc).map Instr.command ++ rest)) =
      some (t, rs) ∧ t.cells = x ∧ t.inputs = rest) ∧
  (∀ (s : State) (a f b c d e h l : Byte) (sp pc : Word16),
    execAll (restoreOps a f b c d e h l sp pc) s = execAll (restoreOps a (f &&& 0xF0) b c d e h l sp pc) s) ∧
  (∀ (s : State) (a f b c d e h l : Byte) (sp pc : Word16) (ws : List Instr),
    ws.Perm (restoreOps a f b c d e h l sp pc).tail → ∃ t rs t' rs' t'' rs'',
      execAll (restoreOps a f b c d e h l sp pc) s = some (t, rs) ∧ execAll ws s = some (t', rs') ∧
      execAll [.wrpAF (a ++ f), .wrpBC (b ++ c), .wrpDE (d ++ e), .wrpHL (h ++ l), .wrwSP sp, .wrwPC pc] s = some (t'', rs'') ∧
      t'.cells = t.cells ∧ t''.cells = t.cells)

/-- The pack half fed by the four flag cells gives flags_to_byte, the four cells latching the unpack half give
flags_from_byte, and the unpack half does not depend on b[3:0]. Rests on 40_flags_packer.md R99; 40_flags_packer.md
R93; 40_flags_packer.md R94. -/
def Obligations.PackerWiresAreThePackerFunctions : Prop :=
  (∀ f : Flags, packWires f.wires = flagsToByte f ∧ f.wires.latch = f) ∧
  (∀ b : Byte, (unpackWires b).latch = flagsFromByte b) ∧
  (∀ b b' : Byte, b.extractLsb' 4 4 = b'.extractLsb' 4 4 → unpackWires b = unpackWires b')

/-- For every pair, steered by idx[1:0] of its select code: RDP returns what the two read multiplexers give, and WRP
leaves the cells the write demultiplexer leaves, the cells it does not enable being unchanged. Rests on
42_pair_access.md R129; 42_pair_access.md R117; 42_pair_access.md R118 to R125. -/
def Obligations.ComposerStructureIsThePairAccess : Prop :=
  ∀ (s : State) (p : Pair) (v : Word16),
    pairIdx p = (getPairOp p).sel.extractLsb' 0 2 ∧ pairIdx p = (setPairOp p v).sel.extractLsb' 0 2 ∧
    Reads (getPairOp p) s (composerRead (pairIdx p) s.cells) ∧
    Writes (setPairOp p v) s (composerWrite (pairIdx p) v s.cells)
end

