-- ==== Sys2Proof/Laws/Decode.lean ====
section
/-! SUPPORT. The fields of a command word, said once. -/

namespace Sys2Proof

@[simp] theorem cwSel_append (sel : Sel) (wdata : Word16) : cwSel (sel ++ wdata) = sel := by
  apply BitVec.eq_of_getLsbD_eq
  intro i hi
  have h := BitVec.getLsbD_append (x := sel) (y := wdata) (i := 16 + i)
  simpa [cwSel, hi] using h

@[simp] theorem cwWdata_append (sel : Sel) (wdata : Word16) : cwWdata (sel ++ wdata) = wdata := by
  apply BitVec.eq_of_getLsbD_eq
  intro i hi
  have h := BitVec.getLsbD_append (x := sel) (y := wdata) (i := i)
  simpa [cwWdata, hi] using h

@[simp] theorem cwSel_append_cwWdata (cw : CommandWord) : (cwSel cw ++ cwWdata cw : CommandWord) = cw := by
  apply BitVec.eq_of_getLsbD_eq
  intro i hi
  have h := BitVec.getLsbD_append (x := cwSel cw) (y := cwWdata cw) (i := i)
  refine h.trans ?_
  by_cases h16 : i < 16
  · simp [cwWdata, h16]
  · simp [cwSel, h16, show i - 16 < 6 by omega, show 16 + (i - 16) = i by omega]

/-- Decoding a word put together from a select code and an operand. -/
@[simp] theorem decode_append (sel : Sel) (wdata : Word16) : decode (sel ++ wdata) = decodeSel sel wdata := by
  simp [decode]

@[simp] theorem operand8_setWidth (v : Byte) : operand8 (v.setWidth 16) = v := by
  revert v; decide

@[simp] theorem operand1_setWidth (b : Bit) : operand1 (b.setWidth 16) = b := by
  revert b; decide

/-- A fact about every select code is a fact about 64 numbers. -/
theorem forall_sel {P : Sel → Prop} (h : ∀ n, n < 64 → P (BitVec.ofNat 6 n)) (sel : Sel) : P sel := by
  have hs := h sel.toNat sel.isLt
  rwa [BitVec.ofNat_toNat, BitVec.setWidth_eq] at hs

/-- The decoder gives nothing exactly at the reserved codes. -/
theorem decodeSel_of_reserved {sel : Sel} (h : reservedSel sel = true) (wdata : Word16) :
    decodeSel sel wdata = .reserved sel := by
  revert h
  refine forall_sel (P := fun sel => reservedSel sel = true → decodeSel sel wdata = .reserved sel) (fun n hn => ?_) sel
  interval_cases n <;> first | (intro _; rfl) | (intro h; exact Bool.noConfusion (h : false = true))

theorem decodeSel_of_defined {sel : Sel} (h : reservedSel sel = false) (wdata : Word16) :
    ∃ i, decodeSel sel wdata = .op i := by
  revert h
  refine forall_sel (P := fun sel => reservedSel sel = false → ∃ i, decodeSel sel wdata = .op i) (fun n hn => ?_) sel
  interval_cases n <;> first | (intro _; exact ⟨_, rfl⟩) | (intro h; exact Bool.noConfusion (h : true = false))

/-! ## The decoder at each defined select code -/

theorem decodeSel_00 (w : Word16) : decodeSel 0x00#6 w = .op .nop := rfl
theorem decodeSel_08 (w : Word16) : decodeSel 0x08#6 w = .op .reset := rfl
theorem decodeSel_10 (w : Word16) : decodeSel 0x10#6 w = .op .rd8A := rfl
theorem decodeSel_11 (w : Word16) : decodeSel 0x11#6 w = .op .rd8F := rfl
theorem decodeSel_12 (w : Word16) : decodeSel 0x12#6 w = .op .rd8B := rfl
theorem decodeSel_13 (w : Word16) : decodeSel 0x13#6 w = .op .rd8C := rfl
theorem decodeSel_14 (w : Word16) : decodeSel 0x14#6 w = .op .rd8D := rfl
theorem decodeSel_15 (w : Word16) : decodeSel 0x15#6 w = .op .rd8E := rfl
theorem decodeSel_16 (w : Word16) : decodeSel 0x16#6 w = .op .rd8H := rfl
theorem decodeSel_17 (w : Word16) : decodeSel 0x17#6 w = .op .rd8L := rfl
theorem decodeSel_18 (w : Word16) : decodeSel 0x18#6 w = .op (.wr8A (operand8 w)) := rfl
theorem decodeSel_19 (w : Word16) : decodeSel 0x19#6 w = .op (.wr8F (operand8 w)) := rfl
theorem decodeSel_1A (w : Word16) : decodeSel 0x1A#6 w = .op (.wr8B (operand8 w)) := rfl
theorem decodeSel_1B (w : Word16) : decodeSel 0x1B#6 w = .op (.wr8C (operand8 w)) := rfl
theorem decodeSel_1C (w : Word16) : decodeSel 0x1C#6 w = .op (.wr8D (operand8 w)) := rfl
theorem decodeSel_1D (w : Word16) : decodeSel 0x1D#6 w = .op (.wr8E (operand8 w)) := rfl
theorem decodeSel_1E (w : Word16) : decodeSel 0x1E#6 w = .op (.wr8H (operand8 w)) := rfl
theorem decodeSel_1F (w : Word16) : decodeSel 0x1F#6 w = .op (.wr8L (operand8 w)) := rfl
theorem decodeSel_20 (w : Word16) : decodeSel 0x20#6 w = .op .rdflZF := rfl
theorem decodeSel_21 (w : Word16) : decodeSel 0x21#6 w = .op .rdflNF := rfl
theorem decodeSel_22 (w : Word16) : decodeSel 0x22#6 w = .op .rdflHF := rfl
theorem decodeSel_23 (w : Word16) : decodeSel 0x23#6 w = .op .rdflCF := rfl
theorem decodeSel_28 (w : Word16) : decodeSel 0x28#6 w = .op (.wrflZF (operand1 w)) := rfl
theorem decodeSel_29 (w : Word16) : decodeSel 0x29#6 w = .op (.wrflNF (operand1 w)) := rfl
theorem decodeSel_2A (w : Word16) : decodeSel 0x2A#6 w = .op (.wrflHF (operand1 w)) := rfl
theorem decodeSel_2B (w : Word16) : decodeSel 0x2B#6 w = .op (.wrflCF (operand1 w)) := rfl
theorem decodeSel_30 (w : Word16) : decodeSel 0x30#6 w = .op .rdpAF := rfl
theorem decodeSel_31 (w : Word16) : decodeSel 0x31#6 w = .op .rdpBC := rfl
theorem decodeSel_32 (w : Word16) : decodeSel 0x32#6 w = .op .rdpDE := rfl
theorem decodeSel_33 (w : Word16) : decodeSel 0x33#6 w = .op .rdpHL := rfl
theorem decodeSel_34 (w : Word16) : decodeSel 0x34#6 w = .op .rdwSP := rfl
theorem decodeSel_35 (w : Word16) : decodeSel 0x35#6 w = .op .rdwPC := rfl
theorem decodeSel_38 (w : Word16) : decodeSel 0x38#6 w = .op (.wrpAF w) := rfl
theorem decodeSel_39 (w : Word16) : decodeSel 0x39#6 w = .op (.wrpBC w) := rfl
theorem decodeSel_3A (w : Word16) : decodeSel 0x3A#6 w = .op (.wrpDE w) := rfl
theorem decodeSel_3B (w : Word16) : decodeSel 0x3B#6 w = .op (.wrpHL w) := rfl
theorem decodeSel_3C (w : Word16) : decodeSel 0x3C#6 w = .op (.wrwSP w) := rfl
theorem decodeSel_3D (w : Word16) : decodeSel 0x3D#6 w = .op (.wrwPC w) := rfl

/-! ## Operands put together with the bits that are ignored -/

theorem decode_append_byte (sel : Sel) (u v : Byte) : decode (sel ++ (u ++ v : Word16)) = decodeSel sel (u ++ v : Word16) :=
  decode_append _ _

theorem decode_append_bit (sel : Sel) (u : BitVec 15) (b : Bit) :
    decode (sel ++ (u ++ b : Word16)) = decodeSel sel (u ++ b : Word16) :=
  decode_append _ _

@[simp] theorem operand8_append (u v : Byte) : operand8 (u ++ v : Word16) = v := by
  apply BitVec.eq_of_getLsbD_eq
  intro i hi
  have h := BitVec.getLsbD_append (x := u) (y := v) (i := i)
  simpa [operand8, hi] using h

@[simp] theorem operand1_append (u : BitVec 15) (b : Bit) : operand1 (u ++ b : Word16) = b := by
  apply BitVec.eq_of_getLsbD_eq
  intro i hi
  have h := BitVec.getLsbD_append (x := u) (y := b) (i := i)
  obtain rfl : i = 0 := by omega
  simpa [operand1] using h

/-- A legal cycle spells an operation. -/
theorem operation_of_wellFormed {c : Cycle} (h : c.wellFormed = true) : ∃ i, c.operation = .op i := by
  obtain ⟨rst, v, sel, w⟩ := c
  cases rst
  · cases v
    · exact ⟨.nop, rfl⟩
    · have h' : reservedSel sel = false := by simpa [Cycle.wellFormed] using h
      simpa [Cycle.operation] using decodeSel_of_defined h' w
  · exact ⟨.reset, rfl⟩

end Sys2Proof
end

