-- ==== Sys2Proof/Laws/Flags.lean ====
section
/-! SUPPORT. The flags packer and the composer: what the conversions give, said once. -/

namespace Sys2Proof.Machine

@[simp] theorem flagsContains_flagsWith_same (f : Flags) (c : Cond) (b : Bit) :
    flagsContains (flagsWith f c b) c = b := by
  cases c <;> rfl

theorem flagsContains_flagsWith_ne (f : Flags) {c d : Cond} (b : Bit) (h : d ≠ c) :
    flagsContains (flagsWith f c b) d = flagsContains f d := by
  cases c <;> cases d <;> first | rfl | exact absurd rfl h

theorem Flags.ext_contains {f g : Flags} (h : ∀ c, flagsContains f c = flagsContains g c) : f = g := by
  cases f; cases g
  simpa [flagsContains] using And.intro (h .ZF) (And.intro (h .NF) (And.intro (h .HF) (h .CF)))

/-- The packed byte, for any four bits: proved for the sixteen cases once. -/
theorem unpack_pack (z n h c : Bit) : flagsFromByte (z ++ n ++ h ++ c ++ 0b0000#4) = ⟨z, n, h, c⟩ := by
  revert z n h c; decide

@[simp] theorem splitHi_compose (hi lo : Byte) : splitHi (compose hi lo) = hi := by
  apply BitVec.eq_of_getLsbD_eq
  intro i hi'
  have h := BitVec.getLsbD_append (x := hi) (y := lo) (i := 8 + i)
  simpa [splitHi, compose, hi'] using h

@[simp] theorem splitLo_compose (hi lo : Byte) : splitLo (compose hi lo) = lo := by
  apply BitVec.eq_of_getLsbD_eq
  intro i hi'
  have h := BitVec.getLsbD_append (x := hi) (y := lo) (i := i)
  simpa [splitLo, compose, hi'] using h

end Sys2Proof.Machine
end

