-- ==== Sys2Proof/Laws/State.lean ====
section
/-! SUPPORT. One lemma per field per update of the state and of the cells. -/

namespace Sys2Proof.Machine

@[simp] theorem State.advance_cells (s : State) : s.advance.cells = s.cells := rfl
@[simp] theorem State.advance_resetDone (s : State) : s.advance.resetDone = s.resetDone := rfl
@[simp] theorem State.advance_rvalid (s : State) : s.advance.rvalid = s.rvalid := rfl
@[simp] theorem State.advance_rdata (s : State) : s.advance.rdata = s.rdata := rfl
@[simp] theorem State.advance_inputs (s : State) : s.advance.inputs = s.inputs.tail := rfl

@[simp] theorem State.present_cells (s : State) (cw : CommandWord) : (s.present cw).cells = s.cells := rfl
@[simp] theorem State.present_resetDone (s : State) (cw : CommandWord) : (s.present cw).resetDone = s.resetDone := rfl
@[simp] theorem State.present_rvalid (s : State) (cw : CommandWord) : (s.present cw).rvalid = s.rvalid := rfl
@[simp] theorem State.present_rdata (s : State) (cw : CommandWord) : (s.present cw).rdata = s.rdata := rfl
@[simp] theorem State.present_inputs (s : State) (cw : CommandWord) : (s.present cw).inputs = ⟨false, true, cwSel cw, cwWdata cw⟩ :: s.inputs := rfl

@[simp] theorem State.withInputs_cells (s : State) (cs : List Cycle) : (s.withInputs cs).cells = s.cells := rfl
@[simp] theorem State.withInputs_resetDone (s : State) (cs : List Cycle) : (s.withInputs cs).resetDone = s.resetDone := rfl
@[simp] theorem State.withInputs_rvalid (s : State) (cs : List Cycle) : (s.withInputs cs).rvalid = s.rvalid := rfl
@[simp] theorem State.withInputs_rdata (s : State) (cs : List Cycle) : (s.withInputs cs).rdata = s.rdata := rfl
@[simp] theorem State.withInputs_inputs (s : State) (cs : List Cycle) : (s.withInputs cs).inputs = cs := rfl

@[simp] theorem State.withInputs_withInputs (s : State) (cs ds : List Cycle) :
    (s.withInputs cs).withInputs ds = s.withInputs ds := rfl

@[simp] theorem State.advance_withInputs_cons (s : State) (c : Cycle) (cs : List Cycle) :
    (s.withInputs (c :: cs)).advance = s.withInputs cs := rfl

@[simp] theorem State.cycle_withInputs_cons (s : State) (c : Cycle) (cs : List Cycle) :
    (s.withInputs (c :: cs)).cycle = c := rfl

@[simp] theorem State.withInputs_inputs_self (s : State) : s.withInputs s.inputs = s := rfl

/-! ## Cells: the writes by field -/

@[simp] theorem Cells.write8_sp (x : Cells) (r : Reg8) (v : Byte) : (x.write8 r v).sp = x.sp := by cases r <;> rfl
@[simp] theorem Cells.write8_pc (x : Cells) (r : Reg8) (v : Byte) : (x.write8 r v).pc = x.pc := by cases r <;> rfl
@[simp] theorem Cells.write8_fl (x : Cells) (r : Reg8) (v : Byte) : (x.write8 r v).fl = x.fl := by cases r <;> rfl

@[simp] theorem Cells.read8_write8_same (x : Cells) (r : Reg8) (v : Byte) : (x.write8 r v).read8 r = v := by
  cases r <;> rfl

theorem Cells.read8_write8_ne (x : Cells) {r q : Reg8} (v : Byte) (h : q ≠ r) :
    (x.write8 r v).read8 q = x.read8 q := by
  cases r <;> cases q <;> first | rfl | exact absurd rfl h

@[simp] theorem Cells.writeF_a (x : Cells) (v : Byte) : (x.writeF v).a = x.a := rfl
@[simp] theorem Cells.writeF_b (x : Cells) (v : Byte) : (x.writeF v).b = x.b := rfl
@[simp] theorem Cells.writeF_c (x : Cells) (v : Byte) : (x.writeF v).c = x.c := rfl
@[simp] theorem Cells.writeF_d (x : Cells) (v : Byte) : (x.writeF v).d = x.d := rfl
@[simp] theorem Cells.writeF_e (x : Cells) (v : Byte) : (x.writeF v).e = x.e := rfl
@[simp] theorem Cells.writeF_h (x : Cells) (v : Byte) : (x.writeF v).h = x.h := rfl
@[simp] theorem Cells.writeF_l (x : Cells) (v : Byte) : (x.writeF v).l = x.l := rfl
@[simp] theorem Cells.writeF_sp (x : Cells) (v : Byte) : (x.writeF v).sp = x.sp := rfl
@[simp] theorem Cells.writeF_pc (x : Cells) (v : Byte) : (x.writeF v).pc = x.pc := rfl

@[simp] theorem Cells.writeFlag_a (x : Cells) (c : Cond) (b : Bit) : (x.writeFlag c b).a = x.a := rfl
@[simp] theorem Cells.writeFlag_b (x : Cells) (k : Cond) (v : Bit) : (x.writeFlag k v).b = x.b := rfl
@[simp] theorem Cells.writeFlag_c (x : Cells) (k : Cond) (v : Bit) : (x.writeFlag k v).c = x.c := rfl
@[simp] theorem Cells.writeFlag_d (x : Cells) (c : Cond) (b : Bit) : (x.writeFlag c b).d = x.d := rfl
@[simp] theorem Cells.writeFlag_e (x : Cells) (c : Cond) (b : Bit) : (x.writeFlag c b).e = x.e := rfl
@[simp] theorem Cells.writeFlag_h (x : Cells) (c : Cond) (b : Bit) : (x.writeFlag c b).h = x.h := rfl
@[simp] theorem Cells.writeFlag_l (x : Cells) (c : Cond) (b : Bit) : (x.writeFlag c b).l = x.l := rfl
@[simp] theorem Cells.writeFlag_sp (x : Cells) (c : Cond) (b : Bit) : (x.writeFlag c b).sp = x.sp := rfl
@[simp] theorem Cells.writeFlag_pc (x : Cells) (c : Cond) (b : Bit) : (x.writeFlag c b).pc = x.pc := rfl

@[simp] theorem Cells.writeF_fl (x : Cells) (v : Byte) : (x.writeF v).fl = flagsFromByte v := rfl
@[simp] theorem Cells.writeFlag_fl (x : Cells) (c : Cond) (b : Bit) : (x.writeFlag c b).fl = flagsWith x.fl c b := rfl

end Sys2Proof.Machine
end

