-- ==== Sys2Proof/Laws/Exec.lean ====
section
/-! SUPPORT. Every operation completes, and what it leaves is what the operation level says: the one lemma about `exec` that
later proofs cite instead of unfolding the meanings. -/

namespace Sys2Proof.Machine

/-! ## The two spellings of each value: field by field (the meanings) and bit by bit (the operation level) -/

theorem zext16_byte (v : Byte) : zext16 v = 0#8 ++ v := by
  revert v; decide

theorem zext16_bit (b : Bit) : zext16 b = 0#15 ++ b := by
  revert b; decide

theorem zext16_flagsToByte (f : Flags) :
    zext16 (flagsToByte f) = 0#8 ++ f.zf ++ f.nf ++ f.hf ++ f.cf ++ 0#4 := by
  obtain ⟨z, n, h, c⟩ := f
  revert z n h c; decide

theorem compose_flagsToByte (a : Byte) (f : Flags) :
    compose a (flagsToByte f) = a ++ f.zf ++ f.nf ++ f.hf ++ f.cf ++ 0#4 := by
  obtain ⟨z, n, h, c⟩ := f
  simp only [compose, flagsToByte]
  revert a z n h c; decide

theorem truncate_setWidth16 (v : Byte) : (v.setWidth 16).truncate 8 = v := by
  revert v; decide

theorem bitOf_setWidth16 (b : Bit) : bitOf (b.setWidth 16) 0 = b := by
  revert b; decide

theorem flagsFromByte_bits (v : Byte) :
    flagsFromByte v = ⟨bitOf (v.setWidth 16) 7, bitOf (v.setWidth 16) 6, bitOf (v.setWidth 16) 5, bitOf (v.setWidth 16) 4⟩ := by
  revert v; decide

theorem splitLo_shift (v : Word16) : splitLo (v >>> 8) = splitHi v := by
  apply BitVec.eq_of_getLsbD_eq
  intro i hi
  simp [splitHi, splitLo, hi]

theorem splitLo_truncate (v : Word16) : v.truncate 8 = splitLo v := by
  apply BitVec.eq_of_getLsbD_eq
  intro i hi
  simp [splitLo, hi]

theorem extractLsb'_one {n : Nat} (v : BitVec n) (k : Nat) : v.extractLsb' k 1 = BitVec.ofBool (v.getLsbD k) := by
  apply BitVec.eq_of_getLsbD_eq
  intro i hi
  obtain rfl : i = 0 := by omega
  simp

theorem flagsFromByte_splitLo (v : Word16) :
    flagsFromByte (splitLo v) = ⟨bitOf v 7, bitOf v 6, bitOf v 5, bitOf v 4⟩ := by
  simp [flagsFromByte, splitLo, bitOf, extractLsb'_one]

/-! ## The value and the store of each kind of item -/

@[simp] theorem value_reg (x : Cells) (r : Reg8) : (Item.reg r).value x = zext16 (x.read8 r) := by
  cases r <;> exact (zext16_byte _).symm

@[simp] theorem value_f (x : Cells) : Item.f.value x = zext16 x.readF := (zext16_flagsToByte x.fl).symm

@[simp] theorem value_flag (x : Cells) (c : Cond) : (Item.flag c).value x = zext16 (x.readFlag c) := by
  cases c <;> exact (zext16_bit _).symm

@[simp] theorem value_pair (x : Cells) (p : Pair) : (Item.pair p).value x = x.readPair p := by
  cases p
  · exact (compose_flagsToByte x.a x.fl).symm
  all_goals rfl

@[simp] theorem value_sp (x : Cells) : Item.sp.value x = x.sp := rfl
@[simp] theorem value_pc (x : Cells) : Item.pc.value x = x.pc := rfl

@[simp] theorem store_reg (x : Cells) (r : Reg8) (v : Byte) : (Item.reg r).store x (v.setWidth 16) = x.write8 r v := by
  cases r <;> simp only [Item.store, Cells.write8, truncate_setWidth16]

@[simp] theorem store_f (x : Cells) (v : Byte) : Item.f.store x (v.setWidth 16) = x.writeF v := by
  simp only [Item.store, Cells.writeF, flagsFromByte_bits]

@[simp] theorem store_flag (x : Cells) (c : Cond) (b : Bit) :
    (Item.flag c).store x (b.setWidth 16) = x.writeFlag c b := by
  cases c <;> simp only [Item.store, Cells.writeFlag, flagsWith, bitOf_setWidth16]

@[simp] theorem store_pair (x : Cells) (p : Pair) (v : Word16) : (Item.pair p).store x v = x.writePair p v := by
  cases p <;>
    simp only [Item.store, Cells.writePair, Cells.write8, Cells.writeF, flagsFromByte_splitLo, splitLo_truncate, splitLo_shift]

@[simp] theorem store_sp (x : Cells) (v : Word16) : Item.sp.store x v = { x with sp := v } := rfl
@[simp] theorem store_pc (x : Cells) (v : Word16) : Item.pc.store x v = { x with pc := v } := rfl

/-! ## The law -/

/-- What an operation leaves behind, in the operation level's terms. -/
def completed (s : State) (i : Instr) : State where
  cells := (opStep s.cells i).1
  resetDone := s.resetDone || i == .reset
  rvalid := (opStep s.cells i).2.isSome
  rdata := (opStep s.cells i).2.getD 0
  inputs := s.inputs

/-- Every operation completes, in the state the operation level gives. -/
theorem exec_completes (i : Instr) (s : State) : exec i s = .next (completed s i) := by
  cases i
  case reset => simp [exec, execReset, State.retNone, completed, opStep, accessOf, Cells.reset, Config.cell8Reset,
    Config.spReset, Config.pcReset, flagsEmpty]
  all_goals simp [exec, completed, opStep, accessOf, State.ret, State.retNone,
      execNop, execRd8A, execRd8F, execRd8B, execRd8C, execRd8D, execRd8E, execRd8H, execRd8L, execWr8A,
      execWr8F, execWr8B, execWr8C, execWr8D, execWr8E, execWr8H, execWr8L, execRdflZF, execRdflNF, execRdflHF,
      execRdflCF, execWrflZF, execWrflNF, execWrflHF, execWrflCF, execRdpAF, execRdpBC, execRdpDE, execRdpHL,
      execRdwSP, execRdwPC, execWrpAF, execWrpBC, execWrpDE, execWrpHL, execWrwSP, execWrwPC]

theorem exec_eq_next {i : Instr} {s t : State} : exec i s = .next t ↔ t = completed s i := by
  rw [exec_completes]
  exact ⟨fun h => by injection h with h; exact h.symm, fun h => by rw [h]⟩

@[simp] theorem returned_completed (s : State) (i : Instr) : (completed s i).returned = (opStep s.cells i).2 := by
  cases h : (opStep s.cells i).2 <;> simp [State.returned, completed, h]

@[simp] theorem completed_cells (s : State) (i : Instr) : (completed s i).cells = (opStep s.cells i).1 := rfl
@[simp] theorem completed_inputs (s : State) (i : Instr) : (completed s i).inputs = s.inputs := rfl
@[simp] theorem completed_resetDone (s : State) (i : Instr) :
    (completed s i).resetDone = (s.resetDone || i == .reset) := rfl

end Sys2Proof.Machine
end

