-- ==== Sys2Proof/Laws/Step.lean ====
section
/-! SUPPORT. What a step and a run of the port can do, said once. -/

namespace Sys2Proof.Machine

/-- Everything a step can do: it performs the operation its cycle spells, or it refuses, and it refuses in two cases. -/
theorem step_cases (s : State) :
    (∃ i, s.cycle.operation = .op i ∧ s.admits i = true ∧ step s = .next (completed s.advance i)) ∨
    (∃ i, s.cycle.operation = .op i ∧ s.admits i = false ∧ step s = .refused .beforeFirstReset) ∨
    (∃ sel, s.cycle.operation = .reserved sel ∧ step s = .refused (.reservedSelect sel)) := by
  cases h : s.cycle.operation with
  | op i =>
    cases ha : s.admits i
    · exact .inr (.inl ⟨i, rfl, ha, by simp [step, h, ha]⟩)
    · exact .inl ⟨i, rfl, ha, by simp [step, h, ha, exec_completes]⟩
  | reserved sel => exact .inr (.inr ⟨sel, rfl, by simp [step, h]⟩)

/-- The inversion a proof about a next state cites. -/
theorem step_next {s t : State} (h : step s = .next t) :
    ∃ i, s.cycle.operation = .op i ∧ s.admits i = true ∧ t = completed s.advance i := by
  obtain ⟨i, ho, ha, hs⟩ | ⟨_, _, _, hs⟩ | ⟨_, _, hs⟩ := step_cases s
  · rw [hs] at h
    injection h with h
    exact ⟨i, ho, ha, h.symm⟩
  · rw [hs] at h; nomatch h
  · rw [hs] at h; nomatch h

/-- One cycle that spells an admitted operation, taken off the front of the inputs. -/
theorem step_withInputs_cons {s : State} {c : Cycle} {cs : List Cycle} {i : Instr} (hc : c.operation = .op i)
    (ha : s.admits i = true) : step (s.withInputs (c :: cs)) = .next (completed (s.withInputs cs) i) := by
  have ha' : (s.withInputs (c :: cs)).admits i = true := ha
  simp [step, hc, ha', exec_completes]

/-- One cycle that spells an operation the block does not admit. -/
theorem step_withInputs_not_admitted {s : State} {c : Cycle} {cs : List Cycle} {i : Instr} (hc : c.operation = .op i)
    (ha : s.admits i = false) : step (s.withInputs (c :: cs)) = .refused .beforeFirstReset := by
  have ha' : (s.withInputs (c :: cs)).admits i = false := ha
  simp [step, hc, ha']

/-- One cycle that spells nothing. -/
theorem step_withInputs_reserved {s : State} {c : Cycle} {cs : List Cycle} {sel : Sel} (hc : c.operation = .reserved sel) :
    step (s.withInputs (c :: cs)) = .refused (.reservedSelect sel) := by
  simp [step, hc]

theorem admits_of_resetDone {s : State} (h : s.resetDone = true) (i : Instr) : s.admits i = true := by
  simp [State.admits, h]

theorem admits_reset (s : State) : s.admits .reset = true := by
  simp [State.admits]

/-- A performed operation leaves a block that has been reset. -/
theorem completed_resetDone_of_admits {s : State} {i : Instr} (h : s.admits i = true) :
    (completed s i).resetDone = true := h

end Sys2Proof.Machine
end

