-- ==== Sys2Proof/Laws/Claims.lean ====
section
/-! SUPPORT. The words of the statements, `After`, `Reads` and `Writes`, reduced to the operation level once, and the run of a
list of operations. -/

namespace Sys2Proof.Machine

theorem after_iff {i : Instr} {s : State} {P : State → Prop} : After i s P ↔ P (completed s i) := by
  simp [After, exec_completes]

theorem reads_iff {i : Instr} {s : State} {v : Word16} :
    Reads i s v ↔ completed s i = { s with rvalid := true, rdata := v } := by
  simp [Reads, exec_completes]

theorem writes_iff {i : Instr} {s : State} {x : Cells} :
    Writes i s x ↔ completed s i = { s with cells := x, rvalid := false, rdata := 0x0000 } := by
  simp [Writes, exec_completes]

theorem opStep_read {i : Instr} {it : Item} (h : accessOf i = .read it) (x : Cells) :
    opStep x i = (x, some (it.value x)) := by
  simp [opStep, h]

theorem opStep_write {i : Instr} {it : Item} {v : Word16} (h : accessOf i = .write it v) (x : Cells) :
    opStep x i = (it.store x v, none) := by
  simp [opStep, h]

theorem ne_reset_of_read {i : Instr} {it : Item} (h : accessOf i = .read it) : (i == .reset) = false := by
  cases i <;> first | rfl | (simp [accessOf] at h)

theorem ne_reset_of_write {i : Instr} {it : Item} {v : Word16} (h : accessOf i = .write it v) : (i == .reset) = false := by
  cases i <;> first | rfl | (simp [accessOf] at h)

/-- What a read operation leaves. -/
theorem completed_read {i : Instr} {it : Item} (h : accessOf i = .read it) (s : State) :
    completed s i = { s with rvalid := true, rdata := it.value s.cells } := by
  simp [completed, opStep_read h, ne_reset_of_read h]

/-- What a write operation leaves. -/
theorem completed_write {i : Instr} {it : Item} {v : Word16} (h : accessOf i = .write it v) (s : State) :
    completed s i = { s with cells := it.store s.cells v, rvalid := false, rdata := 0 } := by
  simp [completed, opStep_write h, ne_reset_of_write h]

theorem reads_of_access {i : Instr} {it : Item} (h : accessOf i = .read it) {s : State} {v : Word16} :
    Reads i s v ↔ it.value s.cells = v := by
  rw [reads_iff, completed_read h]
  simp

theorem writes_of_access {i : Instr} {it : Item} {v : Word16} (h : accessOf i = .write it v) {s : State} :
    Writes i s (it.store s.cells v) := by
  rw [writes_iff, completed_write h]

/-- A list of operations completes, in the cells and with the values the operation level gives. -/
theorem execAll_completes (is : List Instr) (s : State) :
    ∃ t, execAll is s = some (t, (opRun s.cells is).2) ∧ t.cells = (opRun s.cells is).1 ∧ t.inputs = s.inputs := by
  induction is generalizing s with
  | nil => exact ⟨s, rfl, rfl, rfl⟩
  | cons i is ih =>
    obtain ⟨t, ht, hc, hi⟩ := ih (completed s i)
    refine ⟨t, ?_, hc, hi⟩
    simp only [execAll, exec_completes, ht, opRun, returned_completed, completed_cells]

theorem opRun_append (x : Cells) (is js : List Instr) :
    opRun x (is ++ js) = ((opRun (opRun x is).1 js).1, (opRun x is).2 ++ (opRun (opRun x is).1 js).2) := by
  induction is generalizing x with
  | nil => rfl
  | cons i is ih => simp [opRun, ih]

theorem opRun_length (x : Cells) (is : List Instr) : (opRun x is).2.length = is.length := by
  induction is generalizing x with
  | nil => rfl
  | cons i is ih => simp [opRun, ih]

end Sys2Proof.Machine
end

