-- ==== Sys2Proof/Laws/PerInstr.lean ====
section
/-! SUPPORT. Per-instruction facts about the encoded word: its fields are the operation's select code and operand, and it is
no reserved word. -/

namespace Sys2Proof.Laws.EncodedWord

/-- The encoded word holds the operation's two fields and is one the owner may issue. -/
def Statement (i : Instr) : Prop :=
  cwSel (encode i) = i.sel ∧ cwWdata (encode i) = i.wdata ∧ wellFormedWord (encode i) = true

theorem of_defined {i : Instr} (h : reservedSel i.sel = false) : Statement i := by
  refine ⟨cwSel_append _ _, cwWdata_append _ _, ?_⟩
  have hs : (encode i).extractLsb' 16 6 = i.sel := cwSel_append i.sel i.wdata
  simp [wellFormedWord, hs, h]

theorem nop : Statement .nop := of_defined rfl
theorem reset : Statement .reset := of_defined rfl
theorem rd8A : Statement .rd8A := of_defined rfl
theorem rd8F : Statement .rd8F := of_defined rfl
theorem rd8B : Statement .rd8B := of_defined rfl
theorem rd8C : Statement .rd8C := of_defined rfl
theorem rd8D : Statement .rd8D := of_defined rfl
theorem rd8E : Statement .rd8E := of_defined rfl
theorem rd8H : Statement .rd8H := of_defined rfl
theorem rd8L : Statement .rd8L := of_defined rfl
theorem wr8A (v : Byte) : Statement (.wr8A v) := of_defined rfl
theorem wr8F (v : Byte) : Statement (.wr8F v) := of_defined rfl
theorem wr8B (v : Byte) : Statement (.wr8B v) := of_defined rfl
theorem wr8C (v : Byte) : Statement (.wr8C v) := of_defined rfl
theorem wr8D (v : Byte) : Statement (.wr8D v) := of_defined rfl
theorem wr8E (v : Byte) : Statement (.wr8E v) := of_defined rfl
theorem wr8H (v : Byte) : Statement (.wr8H v) := of_defined rfl
theorem wr8L (v : Byte) : Statement (.wr8L v) := of_defined rfl
theorem rdflZF : Statement .rdflZF := of_defined rfl
theorem rdflNF : Statement .rdflNF := of_defined rfl
theorem rdflHF : Statement .rdflHF := of_defined rfl
theorem rdflCF : Statement .rdflCF := of_defined rfl
theorem wrflZF (v : Bit) : Statement (.wrflZF v) := of_defined rfl
theorem wrflNF (v : Bit) : Statement (.wrflNF v) := of_defined rfl
theorem wrflHF (v : Bit) : Statement (.wrflHF v) := of_defined rfl
theorem wrflCF (v : Bit) : Statement (.wrflCF v) := of_defined rfl
theorem rdpAF : Statement .rdpAF := of_defined rfl
theorem rdpBC : Statement .rdpBC := of_defined rfl
theorem rdpDE : Statement .rdpDE := of_defined rfl
theorem rdpHL : Statement .rdpHL := of_defined rfl
theorem rdwSP : Statement .rdwSP := of_defined rfl
theorem rdwPC : Statement .rdwPC := of_defined rfl
theorem wrpAF (v : Word16) : Statement (.wrpAF v) := of_defined rfl
theorem wrpBC (v : Word16) : Statement (.wrpBC v) := of_defined rfl
theorem wrpDE (v : Word16) : Statement (.wrpDE v) := of_defined rfl
theorem wrpHL (v : Word16) : Statement (.wrpHL v) := of_defined rfl
theorem wrwSP (v : Word16) : Statement (.wrwSP v) := of_defined rfl
theorem wrwPC (v : Word16) : Statement (.wrwPC v) := of_defined rfl

end Sys2Proof.Laws.EncodedWord
end

