-- ==== Sys2Proof/Tests/Slice0.lean ====
section
/-! SUPPORT. Tests of the model on the spec's own words and vectors, and a witness for every hypothesis of the statements. Each
expected result is written out from the spec (95_test_vectors.md, 30_encoding.md), none is the model's own answer. -/

namespace Sys2Proof.Tests

open Sys2Proof Sys2Proof.Machine

/-! ## Ill-formed input is refused (30_encoding.md R80, 70_reset_and_hazards.md R202) -/

/-- The 26 codes of R80, one range after the other. -/
def reservedCodes : List Sel :=
  [0x01, 0x02, 0x03, 0x04, 0x05, 0x06, 0x07] ++ [0x09, 0x0A, 0x0B, 0x0C, 0x0D, 0x0E, 0x0F] ++ [0x24, 0x25, 0x26, 0x27] ++
    [0x2C, 0x2D, 0x2E, 0x2F] ++ [0x36, 0x37] ++ [0x3E, 0x3F]

theorem test_reservedSel_says_the_26_codes : (List.range 64).filter (fun n => reservedSel (BitVec.ofNat 6 n)) =
    reservedCodes.map (fun sel => sel.toNat) := by decide

theorem test_reserved_codes_decode_to_nothing :
    (reservedCodes.all fun sel => decodeSel sel 0x1234 == .reserved sel) = true := by decide

theorem test_wellFormedWord_refuses_a_reserved_word : wellFormedWord 0x24FFFF = false := by decide

theorem test_wellFormedWord_allows_ignored_bits : wellFormedWord 0x2BFFFE = true := by decide

theorem test_cycle_wellFormed_refuses_a_reserved_command : Cycle.wellFormed ⟨false, true, 0x3F, 0⟩ = false := by decide

/-- Section 3: a reserved code is harmless under `rst` and in an idle cycle. -/
theorem test_cycle_wellFormed_allows_reserved_code_unused :
    Cycle.wellFormed ⟨true, true, 0x3F, 0⟩ = true ∧ Cycle.wellFormed ⟨false, false, 0x3F, 0xFFFF⟩ = true := by decide

/-! ## Every constructor's decoding, by a word written out from 30_encoding.md R71 to R78 (cls, w, idx, then wdata) -/

theorem test_decode_nop : decode (0b00#2 ++ 0b0#1 ++ 0b000#3 ++ 0x0000#16) = .op .nop := by decide

theorem test_decode_reset : decode (0b00#2 ++ 0b1#1 ++ 0b000#3 ++ 0xFFFF#16) = .op .reset := by decide

theorem test_decode_rd8A : decode (0b01#2 ++ 0b0#1 ++ 0b000#3 ++ 0x0000#16) = .op .rd8A := by decide

theorem test_decode_rd8F : decode (0b01#2 ++ 0b0#1 ++ 0b001#3 ++ 0x0000#16) = .op .rd8F := by decide

theorem test_decode_rd8B : decode (0b01#2 ++ 0b0#1 ++ 0b010#3 ++ 0x0000#16) = .op .rd8B := by decide

theorem test_decode_rd8C : decode (0b01#2 ++ 0b0#1 ++ 0b011#3 ++ 0x0000#16) = .op .rd8C := by decide

theorem test_decode_rd8D : decode (0b01#2 ++ 0b0#1 ++ 0b100#3 ++ 0x0000#16) = .op .rd8D := by decide

theorem test_decode_rd8E : decode (0b01#2 ++ 0b0#1 ++ 0b101#3 ++ 0x0000#16) = .op .rd8E := by decide

theorem test_decode_rd8H : decode (0b01#2 ++ 0b0#1 ++ 0b110#3 ++ 0x0000#16) = .op .rd8H := by decide

theorem test_decode_rd8L : decode (0b01#2 ++ 0b0#1 ++ 0b111#3 ++ 0x0000#16) = .op .rd8L := by decide

theorem test_decode_wr8A : decode (0b01#2 ++ 0b1#1 ++ 0b000#3 ++ 0x0012#16) = .op (.wr8A 0x12) := by decide

theorem test_decode_wr8F : decode (0b01#2 ++ 0b1#1 ++ 0b001#3 ++ 0xABFF#16) = .op (.wr8F 0xFF) := by decide

theorem test_decode_wr8B : decode (0b01#2 ++ 0b1#1 ++ 0b010#3 ++ 0xAB7F#16) = .op (.wr8B 0x7F) := by decide

theorem test_decode_wr8C : decode (0b01#2 ++ 0b1#1 ++ 0b011#3 ++ 0xAB80#16) = .op (.wr8C 0x80) := by decide

theorem test_decode_wr8D : decode (0b01#2 ++ 0b1#1 ++ 0b100#3 ++ 0x0001#16) = .op (.wr8D 0x01) := by decide

theorem test_decode_wr8E : decode (0b01#2 ++ 0b1#1 ++ 0b101#3 ++ 0x00FE#16) = .op (.wr8E 0xFE) := by decide

theorem test_decode_wr8H : decode (0b01#2 ++ 0b1#1 ++ 0b110#3 ++ 0xAB12#16) = .op (.wr8H 0x12) := by decide

theorem test_decode_wr8L : decode (0b01#2 ++ 0b1#1 ++ 0b111#3 ++ 0xAB34#16) = .op (.wr8L 0x34) := by decide

theorem test_decode_rdflZF : decode (0b10#2 ++ 0b0#1 ++ 0b000#3 ++ 0x0000#16) = .op .rdflZF := by decide

theorem test_decode_rdflNF : decode (0b10#2 ++ 0b0#1 ++ 0b001#3 ++ 0x0000#16) = .op .rdflNF := by decide

theorem test_decode_rdflHF : decode (0b10#2 ++ 0b0#1 ++ 0b010#3 ++ 0x0000#16) = .op .rdflHF := by decide

theorem test_decode_rdflCF : decode (0b10#2 ++ 0b0#1 ++ 0b011#3 ++ 0x0000#16) = .op .rdflCF := by decide

theorem test_decode_wrflZF : decode (0b10#2 ++ 0b1#1 ++ 0b000#3 ++ 0x0001#16) = .op (.wrflZF 1) := by decide

theorem test_decode_wrflNF : decode (0b10#2 ++ 0b1#1 ++ 0b001#3 ++ 0x0001#16) = .op (.wrflNF 1) := by decide

theorem test_decode_wrflHF : decode (0b10#2 ++ 0b1#1 ++ 0b010#3 ++ 0x8001#16) = .op (.wrflHF 1) := by decide

theorem test_decode_wrflCF : decode (0b10#2 ++ 0b1#1 ++ 0b011#3 ++ 0xFFFE#16) = .op (.wrflCF 0) := by decide

theorem test_decode_rdpAF : decode (0b11#2 ++ 0b0#1 ++ 0b000#3 ++ 0xABCD#16) = .op .rdpAF := by decide

theorem test_decode_rdpBC : decode (0b11#2 ++ 0b0#1 ++ 0b001#3 ++ 0xABCD#16) = .op .rdpBC := by decide

theorem test_decode_rdpDE : decode (0b11#2 ++ 0b0#1 ++ 0b010#3 ++ 0xABCD#16) = .op .rdpDE := by decide

theorem test_decode_rdpHL : decode (0b11#2 ++ 0b0#1 ++ 0b011#3 ++ 0xABCD#16) = .op .rdpHL := by decide

theorem test_decode_rdwSP : decode (0b11#2 ++ 0b0#1 ++ 0b100#3 ++ 0xABCD#16) = .op .rdwSP := by decide

theorem test_decode_rdwPC : decode (0b11#2 ++ 0b0#1 ++ 0b101#3 ++ 0xABCD#16) = .op .rdwPC := by decide

theorem test_decode_wrpAF : decode (0b11#2 ++ 0b1#1 ++ 0b000#3 ++ 0xA5A5#16) = .op (.wrpAF 0xA5A5) := by decide

theorem test_decode_wrpBC : decode (0b11#2 ++ 0b1#1 ++ 0b001#3 ++ 0x00FF#16) = .op (.wrpBC 0x00FF) := by decide

theorem test_decode_wrpDE : decode (0b11#2 ++ 0b1#1 ++ 0b010#3 ++ 0xFF00#16) = .op (.wrpDE 0xFF00) := by decide

theorem test_decode_wrpHL : decode (0b11#2 ++ 0b1#1 ++ 0b011#3 ++ 0x1234#16) = .op (.wrpHL 0x1234) := by decide

theorem test_decode_wrwSP : decode (0b11#2 ++ 0b1#1 ++ 0b100#3 ++ 0xFFFC#16) = .op (.wrwSP 0xFFFC) := by decide

theorem test_decode_wrwPC : decode (0b11#2 ++ 0b1#1 ++ 0b101#3 ++ 0x0150#16) = .op (.wrwPC 0x0150) := by decide

/-! ## The host's entry points, the encoder and the text forms -/

/-- R83's and the tables' words in the host's numbering: three bytes for the 22 bits. -/
theorem test_decodeTableWord : decodeTableWord 24 0x3B1234 = some (.wrpHL 0x1234) ∧ decodeTableWord 24 0x110000 = some .rd8F ∧
    decodeTableWord 24 0x36FFFF = none ∧ decodeTableWord 24 0x400000 = none := by decide

theorem test_encode : encode (.wrpHL 0x1234) = 0x3B1234 ∧ encode (.wr8B 0x7F) = 0x1A007F ∧ encode (.wrflCF 1) = 0x2B0001 ∧
    encode .rdwPC = 0x350000 := by decide

theorem test_decodeByTable : decodeByTable 0x1AAB7F = some (.wr8B 0x7F) ∧ decodeByTable 0x3E0000 = none := by decide

/-- The examples of 30_encoding.md R83. -/
theorem test_text : (Instr.wr8B 0x7F).text = "WR8.B 0x7F" ∧ (Instr.wrflCF 1).text = "WRFL.CF 1" ∧
    resultText .rdpHL 0x1234 = "RDP.HL -> 0x1234" := by decide

/-! ## One step per test -/

/-- A state after the first reset with these cells, F given as its byte. -/
def st (a f b c d e h l : Byte) (sp pc : Word16) : State :=
  { State.reset with cells := ⟨a, b, c, d, e, h, l, ⟨f.extractLsb' 7 1, f.extractLsb' 6 1, f.extractLsb' 5 1, f.extractLsb' 4 1⟩, sp, pc⟩ }

/-- The cells after one command word and what the cycle returned; none if the step had no result. -/
def run1 (s : State) (w : Nat) : Option (Cells × Option Word16) :=
  match step (s.withFetchWord 24 w) with
  | .next t => some (t.cells, t.returned)
  | .fault _ => none
  | .refused _ => none

/-- Why one cycle had no result. -/
def why1 (s : State) (c : Cycle) : Option Refusal :=
  match step (s.withInputs [c]) with
  | .next _ => none
  | .fault _ => none
  | .refused r => some r

/-- Cells and returned value of one cycle. -/
def cycle1 (s : State) (c : Cycle) : Option (Cells × Option Word16) :=
  match step (s.withInputs [c]) with
  | .next t => some (t.cells, t.returned)
  | .fault _ => none
  | .refused _ => none

/-- The end state of program P5. -/
def p5 : State := st 0xA5 0xF0 0x01 0x02 0x03 0x04 0x05 0x06 0xC000 0x8000

/-- S1 of section 3. -/
def s1 : State := st 0x12 0x30 0xFF 0xFF 0x00 0x01 0xBE 0xEF 0xC000 0x8000

/-! ### Control (95 section 3) -/

theorem test_step_nop : run1 s1 0x000000 = some (s1.cells, none) := by decide

theorem test_step_reset : run1 s1 0x08FFFF = some (resetCells, none) := by decide

theorem test_step_rst_drops_a_write : cycle1 s1 ⟨true, true, 0x3B, 0x1234⟩ = some (resetCells, none) := by decide

theorem test_step_idle_with_reserved_code : cycle1 s1 ⟨false, false, 0x3F, 0xFFFF⟩ = some (s1.cells, none) := by decide

theorem test_step_refuses_reserved : why1 s1 ⟨false, true, 0x2F, 0⟩ = some (.reservedSelect 0x2F) := by decide

/-- 70_reset_and_hazards.md R197. -/
theorem test_step_before_first_reset : why1 { s1 with resetDone := false } ⟨false, true, 0x10, 0⟩ = some .beforeFirstReset ∧
    cycle1 { s1 with resetDone := false } ⟨true, false, 0x00, 0⟩ = some (resetCells, none) := by decide

/-! ### Reads (programs P5, E2, E5; the state of P5 holds a different value in every cell) -/

theorem test_step_rd8A : run1 p5 0x100000 = some (p5.cells, some 0x00A5) := by decide

theorem test_step_rd8F : run1 p5 0x110000 = some (p5.cells, some 0x00F0) := by decide

theorem test_step_rd8B : run1 p5 0x120000 = some (p5.cells, some 0x0001) := by decide

theorem test_step_rd8C : run1 p5 0x130000 = some (p5.cells, some 0x0002) := by decide

theorem test_step_rd8D : run1 p5 0x140000 = some (p5.cells, some 0x0003) := by decide

theorem test_step_rd8E : run1 p5 0x150000 = some (p5.cells, some 0x0004) := by decide

theorem test_step_rd8H : run1 p5 0x160000 = some (p5.cells, some 0x0005) := by decide

theorem test_step_rd8L : run1 p5 0x170000 = some (p5.cells, some 0x0006) := by decide

theorem test_step_rdpAF : run1 p5 0x300000 = some (p5.cells, some 0xA5F0) := by decide

theorem test_step_rdpBC : run1 p5 0x310000 = some (p5.cells, some 0x0102) := by decide

theorem test_step_rdpDE : run1 p5 0x320000 = some (p5.cells, some 0x0304) := by decide

theorem test_step_rdpHL : run1 p5 0x330000 = some (p5.cells, some 0x0506) := by decide

theorem test_step_rdwSP : run1 p5 0x340000 = some (p5.cells, some 0xC000) := by decide

theorem test_step_rdwPC : run1 p5 0x350000 = some (p5.cells, some 0x8000) := by decide

/-! ### Flag reads: one flag set alone, then all but it (43_direct_access.md R151 to R154, R164) -/

/-- ResetState with F. -/
def withF (f : Byte) : State := st 0x00 f 0x00 0x00 0x00 0x00 0x00 0x00 0xFFFE 0x0100

theorem test_step_rdflZF_alone : run1 (withF 0x80) 0x200000 = some ((withF 0x80).cells, some 0x0001) := by decide

theorem test_step_rdflZF_others : run1 (withF 0x70) 0x200000 = some ((withF 0x70).cells, some 0x0000) := by decide

theorem test_step_rdflNF_alone : run1 (withF 0x40) 0x210000 = some ((withF 0x40).cells, some 0x0001) := by decide

theorem test_step_rdflNF_others : run1 (withF 0xB0) 0x210000 = some ((withF 0xB0).cells, some 0x0000) := by decide

theorem test_step_rdflHF_alone : run1 (withF 0x20) 0x220000 = some ((withF 0x20).cells, some 0x0001) := by decide

theorem test_step_rdflHF_others : run1 (withF 0xD0) 0x220000 = some ((withF 0xD0).cells, some 0x0000) := by decide

theorem test_step_rdflCF_alone : run1 (withF 0x10) 0x230000 = some ((withF 0x10).cells, some 0x0001) := by decide

theorem test_step_rdflCF_others : run1 (withF 0xE0) 0x230000 = some ((withF 0xE0).cells, some 0x0000) := by decide

/-! ### Writes (95 sections 4 and 5), from ResetState -/

theorem test_step_wr8A : run1 State.reset 0x180012 =
    some ((st 0x12 0x00 0x00 0x00 0x00 0x00 0x00 0x00 0xFFFE 0x0100).cells, none) := by decide

theorem test_step_wr8F : run1 State.reset 0x19ABFF =
    some ((st 0x00 0xF0 0x00 0x00 0x00 0x00 0x00 0x00 0xFFFE 0x0100).cells, none) := by decide

theorem test_step_wr8B : run1 State.reset 0x1AAB7F =
    some ((st 0x00 0x00 0x7F 0x00 0x00 0x00 0x00 0x00 0xFFFE 0x0100).cells, none) := by decide

theorem test_step_wr8C : run1 State.reset 0x1BAB80 =
    some ((st 0x00 0x00 0x00 0x80 0x00 0x00 0x00 0x00 0xFFFE 0x0100).cells, none) := by decide

theorem test_step_wr8D : run1 State.reset 0x1C0001 =
    some ((st 0x00 0x00 0x00 0x00 0x01 0x00 0x00 0x00 0xFFFE 0x0100).cells, none) := by decide

theorem test_step_wr8E : run1 State.reset 0x1D00FE =
    some ((st 0x00 0x00 0x00 0x00 0x00 0xFE 0x00 0x00 0xFFFE 0x0100).cells, none) := by decide

theorem test_step_wr8H : run1 State.reset 0x1EAB12 =
    some ((st 0x00 0x00 0x00 0x00 0x00 0x00 0x12 0x00 0xFFFE 0x0100).cells, none) := by decide

theorem test_step_wr8L : run1 State.reset 0x1FAB34 =
    some ((st 0x00 0x00 0x00 0x00 0x00 0x00 0x00 0x34 0xFFFE 0x0100).cells, none) := by decide

/-- Section 5: `WR8.F` with 0x34 keeps bits 5 and 4 only. -/
theorem test_step_wr8F_masks : run1 State.reset 0x190034 = some ((withF 0x30).cells, none) := by decide

theorem test_step_wrflZF_sets : run1 (withF 0x00) 0x280001 = some ((withF 0x80).cells, none) := by decide

theorem test_step_wrflZF_clears : run1 (withF 0xF0) 0x28FFFE = some ((withF 0x70).cells, none) := by decide

theorem test_step_wrflNF_sets : run1 (withF 0x80) 0x290001 = some ((withF 0xC0).cells, none) := by decide

theorem test_step_wrflNF_clears : run1 (withF 0xF0) 0x29FFFE = some ((withF 0xB0).cells, none) := by decide

theorem test_step_wrflHF_sets : run1 (withF 0xC0) 0x2A0001 = some ((withF 0xE0).cells, none) := by decide

theorem test_step_wrflHF_clears : run1 (withF 0xF0) 0x2AFFFE = some ((withF 0xD0).cells, none) := by decide

theorem test_step_wrflCF_sets : run1 (withF 0xE0) 0x2B0001 = some ((withF 0xF0).cells, none) := by decide

theorem test_step_wrflCF_clears : run1 (withF 0xF0) 0x2BFFFE = some ((withF 0xE0).cells, none) := by decide

/-- E2: the low nibble 4 is discarded. -/
theorem test_step_wrpAF : run1 State.reset 0x381234 =
    some ((st 0x12 0x30 0x00 0x00 0x00 0x00 0x00 0x00 0xFFFE 0x0100).cells, none) := by decide

theorem test_step_wrpBC : run1 State.reset 0x391234 =
    some ((st 0x00 0x00 0x12 0x34 0x00 0x00 0x00 0x00 0xFFFE 0x0100).cells, none) := by decide

theorem test_step_wrpDE : run1 State.reset 0x3A1234 =
    some ((st 0x00 0x00 0x00 0x00 0x12 0x34 0x00 0x00 0xFFFE 0x0100).cells, none) := by decide

theorem test_step_wrpHL : run1 State.reset 0x3B1234 =
    some ((st 0x00 0x00 0x00 0x00 0x00 0x00 0x12 0x34 0xFFFE 0x0100).cells, none) := by decide

theorem test_step_wrwSP : run1 State.reset 0x3C0001 =
    some ((st 0x00 0x00 0x00 0x00 0x00 0x00 0x00 0x00 0x0001 0x0100).cells, none) := by decide

theorem test_step_wrwPC : run1 State.reset 0x3DFFFF =
    some ((st 0x00 0x00 0x00 0x00 0x00 0x00 0x00 0x00 0xFFFE 0xFFFF).cells, none) := by decide

/-! ### The packer's tables (95 section 2) -/

theorem test_flagsFromByte : flagsFromByte 0x5A = ⟨0, 1, 0, 1⟩ ∧ flagsFromByte 0xA5 = ⟨1, 0, 1, 0⟩ ∧ flagsToByte ⟨0, 1, 1, 0⟩ = 0x60 := by
  decide

theorem test_flagsWith : flagsToByte (flagsWith (flagsFromByte 0x90) .CF 0) = 0x80 ∧
    flagsToByte (flagsWith (flagsFromByte 0xA0) .NF 1) = 0xE0 := by decide

/-! ## Witnesses: each shows input that meets all hypotheses of a clause of the named statement -/

theorem wit_CycleSpellsItsOperation : decode 0x2BFFFE = .op (.wrflCF 0) ∧ cwSel 0x2BFFFE = 0x2B := by decide

theorem wit_ReservedCodesAreRefused : reservedSel 0x01 = true ∧ reservedSel 0x3F = true ∧ s1.resetDone = true := by decide

theorem wit_EncodeClearsOnlyIgnoredBits : decode 0x1AAB7F = .op (.wr8B 0x7F) ∧
    (0x1A007F#22 &&& (rowMask ||| 0x0000FF)) = (0x1AAB7F#22 &&& (rowMask ||| 0x0000FF)) := by decide

theorem wit_StepPerformsThePresentedCommand_word : s1.resetDone = true ∧ decode 0x3FFFFF = .reserved 0x3F ∧
    decode 0x3DFFFF = .op (.wrwPC 0xFFFF) := by decide

theorem wit_StepPerformsThePresentedCommand_instr : s1.resetDone = true := by decide

theorem wit_StepPerformsThePresentedCommand_table : s1.resetDone = true ∧ decodeTableWord 24 0x3FFFFF = none ∧
    decodeTableWord 24 0x3DFFFF = some (.wrwPC 0xFFFF) := by decide

theorem wit_NoOperationBeforeTheFirstReset_reset : ({ s1 with resetDone := false } : State).resetDone = false ∧
    Cycle.operation ⟨false, true, 0x08, 0xFFFF⟩ = .op .reset := by decide

theorem wit_NoOperationBeforeTheFirstReset_other : ({ s1 with resetDone := false } : State).resetDone = false ∧
    Cycle.operation ⟨false, false, 0x08, 0xFFFF⟩ = .op .nop ∧ Instr.nop ≠ .reset := by decide

theorem wit_ResetSetsEveryCell : State.reset.cells = resetCells := by decide

theorem wit_NopChangesNothing_idle_cycle : s1.resetDone = true := by decide

theorem wit_NopChangesNothing_idle_run : s1.resetDone = true ∧
    ∀ c ∈ [(⟨false, false, 0x3F, 0xFFFF⟩ : Cycle), ⟨false, true, 0x00, 0xABCD⟩], c.rst = false ∧ (c.cmdValid = true → c.sel = 0x00) := by
  decide

theorem wit_ResetPinWins : [(⟨true, true, 0x3F, 0xFFFF⟩ : Cycle), ⟨true, false, 0x00, 0⟩] ≠ [] ∧
    ∀ c ∈ [(⟨true, true, 0x3F, 0xFFFF⟩ : Cycle), ⟨true, false, 0x00, 0⟩], c.rst = true := by decide

theorem wit_ByteWritesStoreTheOperand : (0x3F#8 &&& 0xF0) = (0x34#8 &&& 0xF0) ∧ (0x3F : Byte) ≠ 0x34 := by decide

theorem wit_FlagWritesStoreTheBit : (withF 0x80).cells.fl.zf = 1 ∧ (withF 0x80).cells.fl.nf = 0 ∧ (withF 0x20).cells.fl.hf = 1 ∧
    (withF 0xE0).cells.fl.cf = 0 := by decide

theorem wit_PairWritesSplit : (0x123F#16 &&& 0xFFF0) = (0x1234#16 &&& 0xFFF0) ∧ (0x123F : Word16) ≠ 0x1234 := by decide

theorem wit_FlagFunctionsPackAndUnpack : flagsToByte ⟨0, 0, 1, 1⟩ = flagsToByte (flagsFromByte 0x3F) := by decide

theorem wit_FlagWithReplacesOneField : Cond.CF ≠ Cond.ZF := by decide

theorem wit_PairReadsAreIdempotent : ∀ i ∈ [Instr.rd8A, .rdflCF, .rdpHL, .rdwPC], ∃ it, accessOf i = .read it := by
  simp [accessOf]

theorem wit_WriteThenReadReturnsTheOperand_f : accessOf (.wr8F 0xFF) = .write .f 0x00FF ∧ accessOf .rd8F = .read .f := by decide

theorem wit_WriteThenReadReturnsTheOperand_af : accessOf (.wrpAF 0xFFFF) = .write (.pair .AF) 0xFFFF ∧
    accessOf .rdpAF = .read (.pair .AF) := by decide

theorem wit_WriteThenReadReturnsTheOperand_other : accessOf (.wrwSP 0xFFFF) = .write .sp 0xFFFF ∧ accessOf .rdwSP = .read .sp := by
  decide

theorem wit_WritesKeepUnsharedItems : accessOf (.wrpAF 0xFFFF) = .write (.pair .AF) 0xFFFF ∧ accessOf .rd8C = .read (.reg .C) ∧
    (Item.pair .AF).shares (.reg .C) = false := by decide

theorem wit_WritesCommuteOrLastWins_commute : accessOf (.wr8C 0x22) = .write (.reg .C) 0x0022 ∧
    accessOf (.wrflCF 1) = .write (.flag .CF) 1 ∧ (Item.reg .C).shares (.flag .CF) = false := by decide

theorem wit_WritesCommuteOrLastWins_last : accessOf (.wr8A 0x01) = .write (.reg .A) 0x0001 ∧
    accessOf (.wr8A 0x02) = .write (.reg .A) 0x0002 := by decide

theorem wit_FlagsChangeOnlyByFlagOperations_others : Cond.HF ≠ Cond.CF := by decide

theorem wit_FlagsChangeOnlyByFlagOperations_independent : Instr.rd8H ≠ .rd8F ∧ Instr.rd8H ≠ .rdpAF ∧ ∀ c, Instr.rd8H ≠ readFlagOp c := by
  refine ⟨by decide, by decide, fun c => ?_⟩
  cases c <;> decide

theorem wit_OperationsAreIdempotentAndWritesIgnoreTheState : accessOf .rdpAF = .read (.pair .AF) := by decide

theorem wit_EachCellHoldsItsLastWrite : lastWriter .b [.wrpBC 0x1234, .wr8C 0x56] = some (.wrpBC 0x1234) ∧
    lastWriter .a [.wrpBC 0x1234, .wr8C 0x56] = none := by decide

theorem wit_StepsDependOnlyOnCellsAndCommand_later_cycles : ({ s1 with rvalid := true, rdata := 0x1234 } : State).cells = s1.cells ∧
    ({ s1 with rvalid := true, rdata := 0x1234 } : State).resetDone = s1.resetDone ∧
    [(⟨false, true, 0x3D, 0xFFFF⟩ : Cycle)] ≠ [⟨true, false, 0x3F, 0⟩, ⟨false, true, 0x36, 0⟩] := by decide

theorem wit_StepsDependOnlyOnCellsAndCommand_same_cycles : ({ s1 with rvalid := true, rdata := 0x1234 } : State).cells = s1.cells ∧
    ({ s1 with rvalid := true, rdata := 0x1234 } : State).resetDone = s1.resetDone ∧
    ({ s1 with rvalid := true, rdata := 0x1234 } : State).inputs = s1.inputs ∧
    ({ s1 with rvalid := true, rdata := 0x1234 } : State) ≠ s1 := by decide

theorem wit_OutputsInvariantKept_silent : OutputsInv (s1.withFetchWord 24 0x340000) ∧
    ∃ t, step (s1.withFetchWord 24 0x340000) = .next t :=
  ⟨⟨fun _ => by decide, fun h => absurd h (by decide)⟩, _, rfl⟩

theorem wit_OutputsInvariantKept_answered : OutputsInv ({ s1 with rvalid := true, rdata := 0xC000 }.withFetchWord 24 0x3C0000) ∧
    ∃ t, step ({ s1 with rvalid := true, rdata := 0xC000 }.withFetchWord 24 0x3C0000) = .next t :=
  ⟨⟨fun h => absurd h (by decide), fun _ => ⟨by decide, .sp, by decide⟩⟩, _, rfl⟩

theorem wit_SafeRunsNeverStop_run : SafeInputs (s1.withInputs [⟨false, true, 0x3D, 0xFFFF⟩, ⟨false, false, 0x3F, 0⟩]) :=
  ⟨by decide, .inl (by decide)⟩

theorem wit_SafeRunsNeverStop_first_reset :
    SafeInputs ({ s1 with resetDone := false }.withInputs [⟨true, false, 0x3F, 0⟩, ⟨false, true, 0x10, 0⟩]) :=
  ⟨by decide, .inr (by decide)⟩

theorem wit_SafeRunsNeverStop_illegal : Cycle.wellFormed ⟨false, true, 0x36, 0⟩ = false := by decide

theorem wit_PortRefinesOperationLevel_reset_block :
    [(⟨false, true, 0x3B, 0x1234⟩ : Cycle), ⟨false, false, 0x24, 0⟩].map Cycle.operation = [Instr.wrpHL 0x1234, .nop].map Decoded.op ∧
    s1.resetDone = true := by decide

theorem wit_PortRefinesOperationLevel_first_reset :
    [(⟨true, true, 0x3F, 0⟩ : Cycle), ⟨false, true, 0x34, 0⟩].map Cycle.operation = [Instr.reset, .rdwSP].map Decoded.op ∧
    [Instr.reset, .rdwSP].head? = some .reset := by decide

theorem wit_EveryCellContentIsReachable : ∃ t, step (s1.withFetchWord 24 0x340000) = .next t := ⟨_, rfl⟩

theorem wit_SaveThenRestoreGivesTheStateBack_save : p5.resetDone = true := by decide

theorem wit_SaveThenRestoreGivesTheStateBack_order :
    (restoreOps 0xA5 0xF0 0x01 0x02 0x03 0x04 0x05 0x06 0xC000 0x8000).tail.reverse.Perm
      (restoreOps 0xA5 0xF0 0x01 0x02 0x03 0x04 0x05 0x06 0xC000 0x8000).tail := List.reverse_perm _

theorem wit_PackerWiresAreThePackerFunctions : (0x34#8).extractLsb' 4 4 = (0x3F#8).extractLsb' 4 4 := by decide

end Sys2Proof.Tests
end

section
/-! The scope of the block (00_scope.md): its operations are total. -/

namespace Sys2Proof.Machine

/-- Settles O33 (00_scope.md R9): the state an operation ends in is the one the operation level gives, for every operation
and from every state, so there is no case left in which it could fail. -/
theorem everyOperationCompletes : Obligations.EveryOperationCompletes := by
  intro i s
  exact ⟨completed s i, exec_completes i s⟩

end Sys2Proof.Machine
end

section
/-! The frame of an operation (20_memory.md R56): it leaves every cell it does not write, so a cell changes only by the
writers that 10_state.md names for it. -/

namespace Sys2Proof.Machine

/-- A write to an item leaves the cells the item is not made of. -/
theorem store_get_of_notMem (x : Cells) (v : Word16) {it : Item} {n : CellName} (h : n ∉ it.cells) :
    (it.store x v).get n = x.get n := by
  cases it with
  | reg r => cases r <;> cases n <;> simp [Item.store, Item.cells, Cells.get] at h ⊢
  | f => cases n <;> simp [Item.store, Item.cells, Cells.get] at h ⊢
  | flag c => cases c <;> cases n <;> simp [Item.store, Item.cells, Cells.get] at h ⊢
  | pair p => cases p <;> cases n <;> simp [Item.store, Item.cells, Cells.get] at h ⊢
  | sp | pc => cases n <;> simp [Item.store, Item.cells, Cells.get] at h ⊢

/-- The frame of an operation: a cell it does not write keeps its content. -/
theorem opStep_get_of_notMem (x : Cells) {i : Instr} {n : CellName} (h : n ∉ cellsWritten i) :
    (opStep x i).1.get n = x.get n := by
  cases ha : accessOf i with
  | nothing => simp [opStep, ha]
  | reset => cases n <;> simp [cellsWritten, ha] at h
  | read it => simp [opStep, ha]
  | write it v =>
    have hn : n ∉ it.cells := by simpa [cellsWritten, ha] using h
    simpa [opStep, ha] using store_get_of_notMem x v hn

/-- The operations other than RESET that write a cell, by name. -/
def IsWriterOf (i : Instr) : CellName → Prop
  | .a => (∃ v, i = .wr8A v) ∨ ∃ v, i = .wrpAF v
  | .b => (∃ v, i = .wr8B v) ∨ ∃ v, i = .wrpBC v
  | .c => (∃ v, i = .wr8C v) ∨ ∃ v, i = .wrpBC v
  | .d => (∃ v, i = .wr8D v) ∨ ∃ v, i = .wrpDE v
  | .e => (∃ v, i = .wr8E v) ∨ ∃ v, i = .wrpDE v
  | .h => (∃ v, i = .wr8H v) ∨ ∃ v, i = .wrpHL v
  | .l => (∃ v, i = .wr8L v) ∨ ∃ v, i = .wrpHL v
  | .zf => (∃ v, i = .wr8F v) ∨ (∃ v, i = .wrpAF v) ∨ ∃ b, i = writeFlagOp .ZF b
  | .nf => (∃ v, i = .wr8F v) ∨ (∃ v, i = .wrpAF v) ∨ ∃ b, i = writeFlagOp .NF b
  | .hf => (∃ v, i = .wr8F v) ∨ (∃ v, i = .wrpAF v) ∨ ∃ b, i = writeFlagOp .HF b
  | .cf => (∃ v, i = .wr8F v) ∨ (∃ v, i = .wrpAF v) ∨ ∃ b, i = writeFlagOp .CF b
  | .sp => ∃ v, i = .wrwSP v
  | .pc => ∃ v, i = .wrwPC v

/-- The third column of the table of R56, read the other way: from a cell to its writers. -/
theorem writer_of_mem_cellsWritten {i : Instr} {n : CellName} (h : n ∈ cellsWritten i) : i = .reset ∨ IsWriterOf i n := by
  cases i with
  | reset => exact .inl rfl
  | _ =>
    right
    simp only [cellsWritten, accessOf, Item.cells] at h
    fin_cases h <;> simp [IsWriterOf, writeFlagOp]

/-- Every cell keeps its content unless RESET or one of its own writers is performed. -/
theorem get_completed_or_writer (i : Instr) (s : State) (n : CellName) :
    (completed s i).cells.get n = s.cells.get n ∨ i = .reset ∨ IsWriterOf i n := by
  by_cases h : n ∈ cellsWritten i
  · exact .inr (writer_of_mem_cellsWritten h)
  · exact .inl (opStep_get_of_notMem s.cells h)

/-- Two cells of at most 16 bits with the same zero-extended content have the same content. -/
theorem setWidth16_injective {n : Nat} (hn : n ≤ 16) : Function.Injective (BitVec.setWidth 16 : BitVec n → Word16) :=
  Function.LeftInverse.injective (g := BitVec.setWidth n) fun v => by simp [BitVec.setWidth_setWidth_of_le, hn]

/-- Settles O32: of SP and PC the zero-extended content is the cell itself, and of a byte it determines the cell. -/
theorem cellsChangeOnlyByTheirWriters : Obligations.CellsChangeOnlyByTheirWriters := by
  intro i s
  have byte {v w : Byte} (h : v.setWidth 16 = w.setWidth 16) : v = w := setWidth16_injective (by decide) h
  rw [after_iff]
  exact ⟨(get_completed_or_writer i s .a).imp_left byte, (get_completed_or_writer i s .b).imp_left byte,
    (get_completed_or_writer i s .c).imp_left byte, (get_completed_or_writer i s .d).imp_left byte,
    (get_completed_or_writer i s .e).imp_left byte, (get_completed_or_writer i s .h).imp_left byte,
    (get_completed_or_writer i s .l).imp_left byte, get_completed_or_writer i s .sp, get_completed_or_writer i s .pc⟩

end Sys2Proof.Machine
end

section
/-! The flags (10_state.md R36): what changes them, and what depends on them. -/

namespace Sys2Proof.Machine

/-- A flag keeps its value unless RESET, a write of all four or the write of this one is performed. -/
theorem flag_completed_or_writer (i : Instr) (s : State) (c : Cond) :
    flagsContains (completed s i).cells.fl c = flagsContains s.cells.fl c ∨ i = .reset ∨ (∃ v, i = .wr8F v) ∨
      (∃ v, i = .wrpAF v) ∨ ∃ b, i = writeFlagOp c b := by
  have bit {v w : Bit} (h : v.setWidth 16 = w.setWidth 16) : v = w := setWidth16_injective (by decide) h
  cases c with
  | ZF => exact (get_completed_or_writer i s .zf).imp_left bit
  | NF => exact (get_completed_or_writer i s .nf).imp_left bit
  | HF => exact (get_completed_or_writer i s .hf).imp_left bit
  | CF => exact (get_completed_or_writer i s .cf).imp_left bit

theorem accessOf_writeFlagOp (c : Cond) (b : Bit) : accessOf (writeFlagOp c b) = .write (.flag c) (b.setWidth 16) := by
  cases c <;> rfl

theorem completed_writeFlagOp (s : State) (c : Cond) (b : Bit) :
    completed s (writeFlagOp c b) = { s with cells := s.cells.writeFlag c b, rvalid := false, rdata := 0 } := by
  rw [completed_write (accessOf_writeFlagOp c b), store_flag]

/-- An operation that reads no flag returns and stores the same whatever the flags hold. -/
theorem opStep_independent_of_flags {i : Instr} (hf : i ≠ .rd8F) (hp : i ≠ .rdpAF) (hc : ∀ c, i ≠ readFlagOp c)
    (x : Cells) (g : Flags) :
    (opStep x i).2 = (opStep { x with fl := g } i).2 ∧
      { (opStep x i).1 with fl := (opStep { x with fl := g } i).1.fl } = (opStep { x with fl := g } i).1 := by
  cases i with
  | rd8F => exact absurd rfl hf
  | rdpAF => exact absurd rfl hp
  | rdflZF => exact absurd rfl (hc .ZF)
  | rdflNF => exact absurd rfl (hc .NF)
  | rdflHF => exact absurd rfl (hc .HF)
  | rdflCF => exact absurd rfl (hc .CF)
  | _ => exact ⟨rfl, rfl⟩

/-- Settles O31: if the four flags are not as before, one of them has changed, and an operation that changes it is known. -/
theorem flagsChangeOnlyByFlagOperations : Obligations.FlagsChangeOnlyByFlagOperations := by
  refine ⟨fun i s => ?_, fun s c d b h => ?_, fun i s g hf hp hc => ?_, fun s => ?_⟩
  · rw [after_iff]
    by_cases h : ∀ c, flagsContains (completed s i).cells.fl c = flagsContains s.cells.fl c
    · exact .inl (Flags.ext_contains h)
    · obtain ⟨c, hc⟩ := not_forall.mp h
      exact .inr (((flag_completed_or_writer i s c).resolve_left hc).imp_right
        (.imp_right (.imp_right fun hb => ⟨c, hb⟩)))
  · rw [after_iff, completed_writeFlagOp]
    exact flagsContains_flagsWith_ne s.cells.fl b h
  · simpa [after_iff] using opStep_independent_of_flags hf hp hc s.cells g
  · have hcells : (completed (completed s .reset) (.wrflCF 1)).cells = { resetCells with fl := ⟨0, 0, 0, 1⟩ } := rfl
    simp only [after_iff]
    refine ⟨(reads_of_access rfl).2 ?_, (reads_of_access rfl).2 ?_, (reads_of_access rfl).2 ?_,
      (reads_of_access rfl).2 ?_, (reads_of_access rfl).2 ?_⟩ <;> rw [hcells] <;> rfl

end Sys2Proof.Machine
end

section
/-! The state after reset (10_state.md R49). -/

namespace Sys2Proof.Machine

/-- The value each item has after reset. -/
def resetValue : Item → Word16
  | .sp => 0xFFFE
  | .pc => 0x0100
  | _ => 0x0000

theorem value_reset (it : Item) : it.value State.reset.cells = resetValue it := by
  cases it with
  | reg r => cases r <;> rfl
  | flag c => cases c <;> rfl
  | pair p => cases p <;> rfl
  | f | sp | pc => rfl

theorem reads_reset {i : Instr} {it : Item} (h : accessOf i = .read it) : Reads i State.reset (resetValue it) :=
  (reads_of_access h).2 (value_reset it)

/-- Settles O12: each read operation is cited with the item it reads. -/
theorem resetStateValues : Obligations.ResetStateValues :=
  ⟨reads_reset (it := .reg .A) rfl, reads_reset (it := .f) rfl, reads_reset (it := .reg .B) rfl,
    reads_reset (it := .reg .C) rfl, reads_reset (it := .reg .D) rfl, reads_reset (it := .reg .E) rfl,
    reads_reset (it := .reg .H) rfl, reads_reset (it := .reg .L) rfl, reads_reset (it := .flag .ZF) rfl,
    reads_reset (it := .flag .NF) rfl, reads_reset (it := .flag .HF) rfl, reads_reset (it := .flag .CF) rfl,
    reads_reset (it := .pair .AF) rfl, reads_reset (it := .pair .BC) rfl, reads_reset (it := .pair .DE) rfl,
    reads_reset (it := .pair .HL) rfl, reads_reset (it := .sp) rfl, reads_reset (it := .pc) rfl,
    rfl, fun _ => after_iff.2 rfl⟩

end Sys2Proof.Machine
end

section
/-! What a step depends on (10_state.md R46, R48; 60_exceptions.md R183; 70_reset_and_hazards.md R201). -/

namespace Sys2Proof.Machine

theorem admits_congr {s s' : State} (h : s.resetDone = s'.resetDone) (i : Instr) : s.admits i = s'.admits i := by
  simp only [State.admits, h]

theorem completed_congr {s s' : State} (hc : s.cells = s'.cells) (hr : s.resetDone = s'.resetDone)
    (hi : s.inputs = s'.inputs) (i : Instr) : completed s i = completed s' i := by
  simp only [completed, hc, hr, hi]

/-- A step does not depend on the outputs of the cycle before it. -/
theorem step_congr {s s' : State} (hc : s.cells = s'.cells) (hr : s.resetDone = s'.resetDone)
    (hi : s.inputs = s'.inputs) : step s = step s' := by
  have hcyc : s.cycle = s'.cycle := by simp only [State.cycle, hi]
  have hadv : ∀ i, completed s.advance i = completed s'.advance i := completed_congr hc hr (by simp [hi])
  simp only [step, exec_completes, hcyc, admits_congr hr, hadv]

/-- Settles O36, along what a cycle spells and whether the block admits it: neither looks past the cells and the flag. -/
theorem stepsDependOnlyOnCellsAndCommand : Obligations.StepsDependOnlyOnCellsAndCommand := by
  refine ⟨fun s s' c rest rest' hc hr => ?_, fun s s' hc hr hi => step_congr hc hr hi⟩
  cases ho : c.operation with
  | reserved sel => exact .inl ⟨_, step_withInputs_reserved ho, step_withInputs_reserved ho⟩
  | op i =>
    cases ha : s.admits i with
    | false => exact .inl ⟨_, step_withInputs_not_admitted ho ha,
        step_withInputs_not_admitted ho (admits_congr hr i ▸ ha)⟩
    | true =>
      refine .inr ⟨_, _, step_withInputs_cons ho ha, step_withInputs_cons ho (admits_congr hr i ▸ ha), ?_⟩
      simp [completed, hc, hr]

end Sys2Proof.Machine
end

section
/-! Runs of the port (30_encoding.md R67), as lists of commands and as lists of operations. -/

namespace Sys2Proof.Machine

/-- The decoder reads an operation back from its select code and operand. -/
theorem decodeSel_sel_wdata (i : Instr) : decodeSel i.sel i.wdata = .op i := by
  cases i with
  | wr8A v | wr8F v | wr8B v | wr8C v | wr8D v | wr8E v | wr8H v | wr8L v =>
    simp only [Instr.sel, Instr.wdata, decodeSel_18, decodeSel_19, decodeSel_1A, decodeSel_1B, decodeSel_1C, decodeSel_1D,
      decodeSel_1E, decodeSel_1F, operand8_setWidth]
  | wrflZF b | wrflNF b | wrflHF b | wrflCF b =>
    simp only [Instr.sel, Instr.wdata, decodeSel_28, decodeSel_29, decodeSel_2A, decodeSel_2B, operand1_setWidth]
  | wrpAF v | wrpBC v | wrpDE v | wrpHL v | wrwSP v | wrwPC v =>
    simp only [Instr.sel, Instr.wdata, decodeSel_38, decodeSel_39, decodeSel_3A, decodeSel_3B, decodeSel_3C, decodeSel_3D]
  | _ => rfl

/-- The command of an operation spells that operation. -/
@[simp] theorem operation_command (i : Instr) : i.command.operation = .op i := decodeSel_sel_wdata i

/-- The command of an operation is a legal cycle. -/
theorem wellFormed_command (i : Instr) : i.command.wellFormed = true := by
  cases i <;> rfl

@[simp] theorem returned_withInputs (s : State) (cs : List Cycle) : (s.withInputs cs).returned = s.returned := rfl

/-- A run over cycles that spell a list of operations gives the cells and the values the operation level gives for the list,
and takes exactly those cycles. -/
theorem trace_of_operations {cs : List Cycle} {is : List Instr} (h : cs.map Cycle.operation = is.map Decoded.op)
    (rest : List Cycle) {s : State} (hs : s.resetDone = true ∨ is.head? = some .reset) :
    ∃ t, trace cs.length (s.withInputs (cs ++ rest)) = some (t, (opRun s.cells is).2) ∧
      t.cells = (opRun s.cells is).1 ∧ t.inputs = rest := by
  induction cs generalizing is s with
  | nil =>
    obtain rfl : is = [] := by simpa using h.symm
    exact ⟨s.withInputs rest, rfl, rfl, rfl⟩
  | cons c cs ih =>
    cases is with
    | nil => simp at h
    | cons i is =>
      obtain ⟨hi, his⟩ : c.operation = .op i ∧ cs.map Cycle.operation = is.map Decoded.op := by simpa using h
      have ha : s.admits i = true := by simpa [State.admits] using hs
      obtain ⟨t, ht, hcells, hinputs⟩ := ih his (s := completed s i) (.inl ha)
      have hstep : step (s.withInputs (c :: (cs ++ rest))) = .next ((completed s i).withInputs (cs ++ rest)) :=
        step_withInputs_cons hi ha
      refine ⟨t, ?_, hcells, hinputs⟩
      simp only [List.length_cons, List.cons_append, trace, hstep, ht, opRun, returned_withInputs, returned_completed,
        completed_cells]

end Sys2Proof.Machine
end

section
/-! Every cell content is reachable, and F shows no low nibble (10_state.md R45). -/

namespace Sys2Proof.Machine

theorem compose_splitHi_splitLo (v : Word16) : compose (splitHi v) (splitLo v) = v := by
  simpa [compose, splitHi, splitLo] using BitVec.extractLsb'_append_extractLsb'_eq_extractLsb' (x := v)
    (start₂ := 8) (len₂ := 8) (start₁ := 0) (len₁ := 8) rfl

@[simp] theorem flagsFromByte_flagsToByte (f : Flags) : flagsFromByte (flagsToByte f) = f :=
  unpack_pack f.zf f.nf f.hf f.cf

theorem flagsToByte_flagsFromByte (v : Byte) : flagsToByte (flagsFromByte v) = v &&& 0xF0 := by
  revert v; decide

theorem compose_and_mask (hi lo : Byte) : compose hi lo &&& 0xFFF0 = compose hi (lo &&& 0xF0) := by
  have mask : (0xFFF0 : Word16) = BitVec.allOnes 8 ++ (0xF0 : Byte) := rfl
  rw [mask, compose, BitVec.and_append, BitVec.and_allOnes, compose]

/-- Writing a pair and reading it loses only the low nibble of F. -/
theorem readPair_writePair (x : Cells) (p : Pair) (v : Word16) :
    (x.writePair p v).readPair p = if p = .AF then v &&& 0xFFF0 else v := by
  cases p with
  | AF =>
    calc (x.writePair .AF v).readPair .AF
        = compose (splitHi v) (flagsToByte (flagsFromByte (splitLo v))) := rfl
      _ = compose (splitHi v) (splitLo v) &&& 0xFFF0 := by rw [flagsToByte_flagsFromByte, compose_and_mask]
      _ = v &&& 0xFFF0 := by rw [compose_splitHi_splitLo]
  | BC | DE | HL => exact compose_splitHi_splitLo v

theorem accessOf_setPairOp (p : Pair) (v : Word16) : accessOf (setPairOp p v) = .write (.pair p) v := by
  cases p <;> rfl

theorem accessOf_getPairOp (p : Pair) : accessOf (getPairOp p) = .read (.pair p) := by
  cases p <;> rfl

/-- Six writes that put given contents into the thirteen cells. -/
def loadOps (x : Cells) : List Instr :=
  [.wrpAF (x.readPair .AF), .wrpBC (x.readPair .BC), .wrpDE (x.readPair .DE), .wrpHL (x.readPair .HL), .wrwSP x.sp, .wrwPC x.pc]

theorem opRun_loadOps (x y : Cells) : (opRun y (loadOps x)).1 = x := by
  simp [opRun, loadOps, opStep, accessOf, Cells.readPair, Cells.writePair, Cells.write8, Cells.read8, Cells.readF, Cells.writeF]

/-- A value whose last four bits are zeros shows no low nibble. -/
theorem append_zero_nibble_and (v : BitVec 12) : (v ++ 0#4 : Word16) &&& 0x000F = 0 := by
  have mask : (0x000F : Word16) = 0#12 ++ 0xF#4 := rfl
  rw [mask, BitVec.and_append, BitVec.and_zero, BitVec.zero_and]
  rfl

/-- Settles O41: six commands load any thirteen contents, and the low nibbles read are the zeros packed with the flags. -/
theorem everyCellContentIsReachable : Obligations.EveryCellContentIsReachable := by
  refine ⟨fun x => ?_, fun s => ?_, fun s p v => ?_, fun s t h => ?_⟩
  · have hop : ((loadOps x).map Instr.command).map Cycle.operation = (loadOps x).map Decoded.op := by simp
    obtain ⟨t, ht, hcells, hinputs⟩ := trace_of_operations hop [] (s := State.reset) (.inl rfl)
    rw [List.append_nil] at ht
    refine ⟨_, t, _, fun c hc => ?_, ht, hcells.trans (opRun_loadOps x _), hinputs⟩
    obtain ⟨i, -, rfl⟩ := List.mem_map.mp hc
    exact wellFormed_command i
  · exact ⟨_, _, (reads_of_access (it := .f) rfl).2 rfl, append_zero_nibble_and _,
      (reads_of_access (it := .pair .AF) rfl).2 rfl, append_zero_nibble_and _⟩
  · rw [after_iff, completed_write (accessOf_setPairOp p v), reads_of_access (accessOf_getPairOp p), value_pair, store_pair]
    exact readPair_writePair s.cells p v
  · obtain ⟨i, -, -, rfl⟩ := step_next h
    rfl

end Sys2Proof.Machine
end

section
/-! Reads, writes and their order (20_memory.md R58, R61): what an operation puts into a cell it writes does not depend on what
the state held, so a repeated operation changes nothing more and the last writer of a cell decides its content. -/

namespace Sys2Proof.Machine

/-- What a write puts into the cells of its item depends on the operand alone. -/
theorem store_get_of_mem (x y : Cells) (v : Word16) {it : Item} {n : CellName} (h : n ∈ it.cells) :
    (it.store x v).get n = (it.store y v).get n := by
  cases it with
  | reg r => cases r <;> (rw [Item.cells] at h; fin_cases h; rfl)
  | f => rw [Item.cells] at h; fin_cases h <;> rfl
  | flag c => cases c <;> (rw [Item.cells] at h; fin_cases h; rfl)
  | pair p => cases p <;> (rw [Item.cells] at h; fin_cases h <;> rfl)
  | sp | pc => rw [Item.cells] at h; fin_cases h; rfl

/-- What an operation puts into a cell it writes does not depend on the cells before it. -/
theorem opStep_get_of_mem (x y : Cells) {i : Instr} {n : CellName} (h : n ∈ cellsWritten i) :
    (opStep x i).1.get n = (opStep y i).1.get n := by
  cases ha : accessOf i with
  | nothing | read it => simp [cellsWritten, ha] at h
  | reset => simp [opStep, ha]
  | write it v =>
    have hn : n ∈ it.cells := by simpa [cellsWritten, ha] using h
    simpa [opStep, ha] using store_get_of_mem x y v hn

@[simp] theorem store_store (x : Cells) (v : Word16) (it : Item) : it.store (it.store x v) v = it.store x v := by
  cases it with
  | reg r => cases r <;> rfl
  | flag c => cases c <;> rfl
  | pair p => cases p <;> rfl
  | f | sp | pc => rfl

/-- An operation repeated leaves and returns what it did once. -/
@[simp] theorem opStep_opStep (x : Cells) (i : Instr) : opStep (opStep x i).1 i = opStep x i := by
  cases ha : accessOf i <;> simp [opStep, ha]

@[simp] theorem completed_completed (s : State) (i : Instr) : completed (completed s i) i = completed s i := by
  simp [completed]

/-- Settles O34: a cell is written in both states, then with the same value, or in neither. -/
theorem operationsAreIdempotentAndWritesIgnoreTheState : Obligations.OperationsAreIdempotentAndWritesIgnoreTheState := by
  refine ⟨fun i s => ?_, fun i it s h => ?_, fun i s s' n => ?_⟩
  · rw [after_iff, exec_completes, completed_completed]
  · rw [after_iff, completed_read h]
  · simp only [after_iff, completed_cells]
    by_cases h : n ∈ cellsWritten i
    · exact .inr (opStep_get_of_mem s.cells s'.cells h)
    · exact .inl ⟨opStep_get_of_notMem s.cells h, opStep_get_of_notMem s'.cells h⟩

/-- The last operation of a list is the last writer of the cells it writes; of the others it is not. -/
theorem lastWriter_concat (n : CellName) (is : List Instr) (i : Instr) :
    lastWriter n (is ++ [i]) = if n ∈ cellsWritten i then some i else lastWriter n is := by
  by_cases h : n ∈ cellsWritten i <;> simp [lastWriter, h]

theorem opRun_concat_cells (x : Cells) (is : List Instr) (i : Instr) :
    (opRun x (is ++ [i])).1 = (opStep (opRun x is).1 i).1 := by
  simp [opRun_append, opRun]

/-- A cell that no operation of the list writes keeps its content. -/
theorem opRun_get_of_lastWriter_none (x : Cells) {n : CellName} {is : List Instr} (h : lastWriter n is = none) :
    (opRun x is).1.get n = x.get n := by
  induction is using List.reverseRecOn with
  | nil => rfl
  | append_singleton is j ih =>
    rw [lastWriter_concat] at h
    split at h
    case isTrue hj => cases h
    case isFalse hj => rw [opRun_concat_cells, opStep_get_of_notMem _ hj, ih h]

/-- A cell that the list writes holds what its last writer gives it from any cells. -/
theorem opRun_get_of_lastWriter_some (x y : Cells) {n : CellName} {is : List Instr} {i : Instr}
    (h : lastWriter n is = some i) : (opRun x is).1.get n = (opStep y i).1.get n := by
  induction is using List.reverseRecOn with
  | nil => cases h
  | append_singleton is j ih =>
    rw [lastWriter_concat] at h
    rw [opRun_concat_cells]
    split at h
    case isTrue hj =>
      obtain rfl : j = i := by simpa using h
      exact opStep_get_of_mem _ y hj
    case isFalse hj => rw [opStep_get_of_notMem _ hj, ih h]

/-- Settles O35: the run of the list is the operation level's, where each cell is followed to its last writer. -/
theorem eachCellHoldsItsLastWrite : Obligations.EachCellHoldsItsLastWrite := by
  intro is s
  obtain ⟨t, ht, hcells, -⟩ := execAll_completes is s
  refine ⟨t, _, ht, opRun_length s.cells is, fun n => ?_⟩
  rw [hcells]
  cases h : lastWriter n is with
  | none => exact opRun_get_of_lastWriter_none s.cells h
  | some i => exact fun s' => after_iff.2 (opRun_get_of_lastWriter_some s.cells s'.cells h)

end Sys2Proof.Machine
end

section
/-! The opcode table (30_encoding.md R73 to R78): its rows by select code and operand bits, and the decoder written from it. -/

namespace Sys2Proof

/-- The select code a row stands for. -/
def OpcodeRow.sel (r : OpcodeRow) : Sel := cwSel r.matchWord

/-- The bits of `wdata` that are the row's operand. -/
def OpcodeRow.operandMask (r : OpcodeRow) : Word16 := cwWdata r.operandBits

theorem matchWord_eq_sel_append {r : OpcodeRow} (hr : r ∈ opcodeTable) : r.matchWord = r.sel ++ 0#16 := by
  revert r; decide

theorem operandBits_eq_append_operandMask {r : OpcodeRow} (hr : r ∈ opcodeTable) :
    r.operandBits = 0#6 ++ r.operandMask := by
  revert r; decide

/-- Every select code that is not reserved has a row. -/
theorem exists_row_of_defined {sel : Sel} (h : reservedSel sel = false) : ∃ r ∈ opcodeTable, r.sel = sel := by
  revert h
  exact forall_sel (P := fun sel => reservedSel sel = false → ∃ r ∈ opcodeTable, r.sel = sel) (by decide) sel

/-- At a row's select code the decoder gives the row's operation. -/
theorem decodeSel_row {r : OpcodeRow} (hr : r ∈ opcodeTable) (w : Word16) : decodeSel r.sel w = .op (r.build w) := by
  fin_cases hr <;> rfl

theorem build_sel {r : OpcodeRow} (hr : r ∈ opcodeTable) (w : Word16) : (r.build w).sel = r.sel := by
  fin_cases hr <;> rfl

/-- Taking the low `n` bits of an operand is masking it. -/
theorem setWidth_extractLsb'_zero (w : Word16) {n : Nat} (hn : n ≤ 16) :
    (w.extractLsb' 0 n).setWidth 16 = w &&& BitVec.ofNat 16 (2 ^ n - 1) := by
  have hpow : 2 ^ n ≤ 2 ^ 16 := Nat.pow_le_pow_right (by decide) hn
  have hmask : 2 ^ n - 1 < 2 ^ 16 := by omega
  have hlow : w.toNat % 2 ^ n < 2 ^ 16 := (Nat.mod_le _ _).trans_lt w.isLt
  apply BitVec.eq_of_toNat_eq
  rw [BitVec.toNat_setWidth, BitVec.extractLsb'_toNat, Nat.shiftRight_zero, Nat.mod_eq_of_lt hlow,
    BitVec.toNat_and, BitVec.toNat_ofNat, Nat.mod_eq_of_lt hmask, Nat.and_two_pow_sub_one_eq_mod]

theorem setWidth_operand8 (w : Word16) : (operand8 w).setWidth 16 = w &&& 0x00FF :=
  setWidth_extractLsb'_zero w (n := 8) (by decide)

theorem setWidth_operand1 (w : Word16) : (operand1 w).setWidth 16 = w &&& 0x0001 :=
  setWidth_extractLsb'_zero w (n := 1) (by decide)

/-- A row's operation carries the row's operand bits and no other: none of `wdata`, its low byte, its lowest bit, or all of
it. -/
theorem build_wdata {r : OpcodeRow} (hr : r ∈ opcodeTable) (w : Word16) :
    (r.build w).wdata = w &&& r.operandMask := by
  have all : w &&& 0xFFFF#16 = w := BitVec.and_allOnes
  revert r
  simp [opcodeTable, Instr.wdata, OpcodeRow.operandMask, cwWdata, setWidth_operand8, setWidth_operand1, all]

/-! ## Words under the table's masks -/

theorem rowMask_eq_append : rowMask = BitVec.allOnes 6 ++ 0#16 := rfl

theorem and_rowMask (cw : CommandWord) : cw &&& rowMask = cwSel cw ++ 0#16 := by
  conv_lhs => rw [← cwSel_append_cwWdata cw, rowMask_eq_append, BitVec.and_append, BitVec.and_allOnes, BitVec.and_zero]

/-- A row's two masks together keep the select code and the row's operand bits. -/
theorem and_rowMask_or_operandBits {r : OpcodeRow} (hr : r ∈ opcodeTable) (cw : CommandWord) :
    cw &&& (rowMask ||| r.operandBits) = cwSel cw ++ (cwWdata cw &&& r.operandMask) := by
  conv_lhs => rw [← cwSel_append_cwWdata cw, rowMask_eq_append, operandBits_eq_append_operandMask hr, BitVec.or_append,
    BitVec.and_append, BitVec.or_zero, BitVec.zero_or, BitVec.and_allOnes]

theorem sel_append_wdata_inj {sel sel' : Sel} {w w' : Word16} (h : (sel ++ w : CommandWord) = sel' ++ w') :
    sel = sel' ∧ w = w' :=
  ⟨by simpa using congrArg cwSel h, by simpa using congrArg cwWdata h⟩

theorem encode_build {r : OpcodeRow} (hr : r ∈ opcodeTable) (w : Word16) :
    encode (r.build w) = r.sel ++ (w &&& r.operandMask) := by
  rw [encode, build_sel hr, build_wdata hr]

/-! ## The two decoders agree -/

theorem decodeSel_eq_reserved {sel r : Sel} {w : Word16} :
    decodeSel sel w = .reserved r ↔ r = sel ∧ reservedSel sel = true := by
  cases h : reservedSel sel with
  | true => simp [decodeSel_of_reserved h, eq_comm]
  | false =>
    obtain ⟨i, hi⟩ := decodeSel_of_defined h w
    simp [hi]

theorem decode_of_reserved {cw : CommandWord} (h : reservedSel (cwSel cw) = true) : decode cw = .reserved (cwSel cw) :=
  decodeSel_of_reserved h _

theorem decode_of_row {r : OpcodeRow} (hr : r ∈ opcodeTable) {cw : CommandWord} (hs : r.sel = cwSel cw) :
    decode cw = .op (r.build (cwWdata cw)) := by
  rw [decode, ← hs, decodeSel_row hr]

/-- The row a decoded word belongs to. -/
theorem exists_row_of_decode {cw : CommandWord} {i : Instr} (h : decode cw = .op i) :
    ∃ r ∈ opcodeTable, r.sel = cwSel cw ∧ r.build (cwWdata cw) = i := by
  cases hd : reservedSel (cwSel cw) with
  | true => simp [decode_of_reserved hd] at h
  | false =>
    obtain ⟨r, hr, hs⟩ := exists_row_of_defined hd
    exact ⟨r, hr, hs, by simpa [decode_of_row hr hs] using h⟩

theorem and_rowMask_eq_matchWord {r : OpcodeRow} (hr : r ∈ opcodeTable) {cw : CommandWord} :
    cw &&& rowMask = r.matchWord ↔ r.sel = cwSel cw := by
  rw [and_rowMask, matchWord_eq_sel_append hr]
  exact ⟨fun h => (sel_append_wdata_inj h).1.symm, fun h => by rw [h]⟩

theorem decode_of_decodeByTable {cw : CommandWord} {i : Instr} (h : decodeByTable cw = some i) : decode cw = .op i := by
  obtain ⟨r, hf, rfl⟩ := Option.map_eq_some_iff.mp h
  have hr := List.mem_of_find?_eq_some hf
  have hm : cw &&& rowMask = r.matchWord := by simpa using List.find?_some hf
  exact decode_of_row hr ((and_rowMask_eq_matchWord hr).1 hm)

/-- The decoder written from the table alone finds no row exactly at the reserved codes. -/
theorem decodeByTable_eq_none {cw : CommandWord} : decodeByTable cw = none ↔ reservedSel (cwSel cw) = true := by
  constructor
  · intro h
    by_contra hd
    obtain ⟨r, hr, hs⟩ := exists_row_of_defined (by simpa using hd)
    have hf := List.find?_eq_none.mp (Option.map_eq_none_iff.mp h) r hr
    exact hf (by simpa using (and_rowMask_eq_matchWord hr).2 hs)
  · intro hd
    cases h : decodeByTable cw with
    | none => rfl
    | some i => simpa [decode_of_reserved hd] using decode_of_decodeByTable h

/-- Where the decoder gives an operation, the decoder written from the table alone gives the same. -/
theorem decodeByTable_eq_some {cw : CommandWord} {i : Instr} : decodeByTable cw = some i ↔ decode cw = .op i := by
  refine ⟨decode_of_decodeByTable, fun h => ?_⟩
  cases ht : decodeByTable cw with
  | none => simp [decode_of_reserved (decodeByTable_eq_none.1 ht)] at h
  | some j => simpa [decode_of_decodeByTable ht] using h

/-! ## The encoder against the decoder -/

@[simp] theorem decode_encode (i : Instr) : decode (encode i) = .op i := by
  rw [encode, decode_append, Machine.decodeSel_sel_wdata]

theorem encode_injective {i j : Instr} (h : encode i = encode j) : i = j := by
  simpa using congrArg decode h

/-- A word that decodes to an operation is one the owner may issue. -/
theorem wellFormedWord_of_decode {cw : CommandWord} {i : Instr} (h : decode cw = .op i) : wellFormedWord cw = true := by
  cases hr : reservedSel (cwSel cw) with
  | true => simp [decode_of_reserved hr] at h
  | false => exact congrArg not hr

/-- Settles O5: the word of an operation is read back by the decoder, and what the decoder reads the table gives too. -/
theorem decodeEncodeRoundTrip : Obligations.DecodeEncodeRoundTrip := fun i =>
  ⟨decode_encode i, decodeByTable_eq_some.2 (decode_encode i), wellFormedWord_of_decode (decode_encode i)⟩

/-- Settles O6, by the row the word belongs to: its masks keep the select code and the operand bits, which are all that the
row's operation and its encoding depend on. -/
theorem encodeClearsOnlyIgnoredBits : Obligations.EncodeClearsOnlyIgnoredBits := by
  intro cw i h
  obtain ⟨r, hr, hs, rfl⟩ := exists_row_of_decode h
  refine ⟨r, hr, ((and_rowMask_eq_matchWord hr).2 hs).symm, ?_, fun cw' hkept => ?_⟩
  · rw [encode_build hr, and_rowMask_or_operandBits hr, hs]
  · rw [and_rowMask_or_operandBits hr, and_rowMask_or_operandBits hr] at hkept
    obtain ⟨hs', hw⟩ := sel_append_wdata_inj hkept
    have hbuild : r.build (cwWdata cw') = r.build (cwWdata cw) :=
      encode_injective (by rw [encode_build hr, encode_build hr, hw])
    rw [decode_of_row hr (hs.trans hs'.symm), hbuild]

theorem sel_of_decode {cw : CommandWord} {i : Instr} (h : decode cw = .op i) : cwSel cw = i.sel := by
  obtain ⟨r, hr, hs, rfl⟩ := exists_row_of_decode h
  rw [build_sel hr, hs]

/-- Settles O3: in a command cycle the table's row, or its lack of one, is what the decoder finds. -/
theorem cycleSpellsItsOperation : Obligations.CycleSpellsItsOperation := by
  refine ⟨fun c => ?_, fun cw => decodeByTable_eq_none, fun i cw h => sel_of_decode h, rfl, by decide, by decide⟩
  obtain ⟨rst, valid, sel, w⟩ := c
  cases rst with
  | true => rfl
  | false =>
    cases valid with
    | false => rfl
    | true =>
      have hop : Cycle.operation ⟨false, true, sel, w⟩ = decode (sel ++ w) := (decode_append sel w).symm
      rw [hop]
      cases ht : decodeByTable (sel ++ w) with
      | some i => exact decodeByTable_eq_some.1 ht
      | none =>
        have hd : reservedSel sel = true := by simpa using decodeByTable_eq_none.1 ht
        simpa using decodeSel_of_reserved hd w

end Sys2Proof
end

section
/-! The fields of a command word (30_encoding.md R71, R72) and words written out from the spec. -/

namespace Sys2Proof

theorem select_code_fields (cls : BitVec 2) (w : Bit) (idx : BitVec 3) :
    selCls (cls ++ w ++ idx) = cls ∧ selW (cls ++ w ++ idx) = w ∧ selIdx (cls ++ w ++ idx) = idx := by
  revert cls w idx; decide

/-- Settles O2: the encoder's clause is its definition. -/
theorem commandWordFields : Obligations.CommandWordFields :=
  ⟨fun sel wdata => ⟨cwSel_append sel wdata, cwWdata_append sel wdata⟩, select_code_fields, fun _ => rfl⟩

/-- Settles O1, by running the decoder on each word. -/
theorem fieldExamplesDecode : Obligations.FieldExamplesDecode := by
  unfold Obligations.FieldExamplesDecode
  decide

end Sys2Proof
end

section
/-! One cycle of the port by the operation it spells (30_encoding.md R67, R77, R80). -/

namespace Sys2Proof.Machine

/-- A cycle that spells an admitted operation is `exec` of it on what is left of the inputs. -/
theorem step_withInputs_exec {s : State} {c : Cycle} {cs : List Cycle} {i : Instr} (hc : c.operation = .op i)
    (ha : s.admits i = true) : step (s.withInputs (c :: cs)) = exec i (s.withInputs cs) :=
  (step_withInputs_cons hc ha).trans (exec_completes i _).symm

/-- A command word in the next cycle spells what the decoder reads from it. -/
theorem operation_of_word (cw : CommandWord) : Cycle.operation ⟨false, true, cwSel cw, cwWdata cw⟩ = decode cw := rfl

/-- The host's numbering gives an instruction only by way of a command word. -/
theorem exists_word_of_decodeTableWord {nbits w : Nat} {i : Instr} (h : decodeTableWord nbits w = some i) :
    ∃ cw, tableWord nbits w = some cw ∧ decode cw = .op i := by
  cases hw : tableWord nbits w with
  | none => simp [decodeTableWord, hw] at h
  | some cw =>
    cases hd : decode cw with
    | reserved sel => simp [decodeTableWord, hw, hd] at h
    | op j =>
      obtain rfl : j = i := by simpa [decodeTableWord, hw, hd] using h
      exact ⟨cw, rfl, hd⟩

theorem withFetchWord_of_tableWord {s : State} {nbits w : Nat} {cw : CommandWord} (h : tableWord nbits w = some cw) :
    s.withFetchWord nbits w = s.withInputs (⟨false, true, cwSel cw, cwWdata cw⟩ :: s.inputs) := by
  simp [State.withFetchWord, h, State.present, State.withInputs]

/-- Settles O7: the three ways to present a command are one cycle that spells the operation. -/
theorem stepPerformsThePresentedCommand : Obligations.StepPerformsThePresentedCommand := by
  refine ⟨fun s rest cw i hs h => ?_, fun s rest i hs => ?_, fun s nbits w i hs h => ?_⟩
  · exact step_withInputs_exec h (admits_of_resetDone hs i)
  · exact step_withInputs_exec (operation_command i) (admits_of_resetDone hs i)
  · obtain ⟨cw, hcw, hi⟩ := exists_word_of_decodeTableWord h
    rw [withFetchWord_of_tableWord hcw]
    exact step_withInputs_exec hi (admits_of_resetDone hs i)

/-- The ranges of R80, code by code. -/
theorem reservedSel_iff_mem (sel : Sel) : reservedSel sel = true ↔
    sel ∈ [0x01, 0x02, 0x03, 0x04, 0x05, 0x06, 0x07, 0x09, 0x0A, 0x0B, 0x0C, 0x0D, 0x0E, 0x0F,
      0x24, 0x25, 0x26, 0x27, 0x2C, 0x2D, 0x2E, 0x2F, 0x36, 0x37, 0x3E, 0x3F] := by
  revert sel; decide

/-- Settles O4: `rst` and the idle cycle do not look at the code, and a command with it spells nothing. -/
theorem reservedCodesAreRefused : Obligations.ReservedCodesAreRefused := by
  refine ⟨fun sel r w => ?_, fun s sel w rest h => ⟨?_, fun v => ?_, fun hs => ?_⟩⟩
  · rw [decodeSel_eq_reserved, reservedSel_iff_mem]
  · exact step_withInputs_reserved (decodeSel_of_reserved h w)
  · exact step_withInputs_exec rfl (admits_reset s)
  · exact step_withInputs_exec rfl (admits_of_resetDone hs .nop)

/-- Settles O40: the run takes the cycles one by one, and each leaves and returns what the operation level gives. -/
theorem portRefinesOperationLevel : Obligations.PortRefinesOperationLevel :=
  fun _ _ rest _ h hs => trace_of_operations h rest hs

end Sys2Proof.Machine
end

section
/-! The outputs of the port (30_encoding.md R79). -/

namespace Sys2Proof.Machine

/-- Only a read returns a value: that of its item, and the cells stay as they were. -/
theorem opStep_eq_some {x : Cells} {i : Instr} {v : Word16} (h : (opStep x i).2 = some v) :
    (opStep x i).1 = x ∧ ∃ it : Item, v = it.value x := by
  cases ha : accessOf i with
  | read it =>
    rw [opStep_read ha] at h ⊢
    exact ⟨rfl, it, (Option.some.inj h).symm⟩
  | nothing | reset | write it v => simp [opStep, ha] at h

/-- Any operation the block admits leaves the outputs as R79 says, whatever they were. -/
theorem outputsInv_completed {s : State} {i : Instr} (ha : s.admits i = true) : OutputsInv (completed s i) := by
  cases h : (opStep s.cells i).2 with
  | none => exact ⟨fun _ => by simp [completed, h], fun hv => by simp [completed, h] at hv⟩
  | some v =>
    obtain ⟨hcells, it, rfl⟩ := opStep_eq_some h
    exact ⟨fun hv => by simp [completed, h] at hv, fun _ =>
      ⟨completed_resetDone_of_admits ha, it, by simp only [completed, h, hcells, Option.getD_some]⟩⟩

/-- F is read with nothing in the high byte and in the low nibble. -/
theorem value_f_and_mask (x : Cells) : Item.f.value x &&& 0xFF0F = 0 := by
  simp only [Item.value]
  generalize x.fl.zf = z, x.fl.nf = n, x.fl.hf = h, x.fl.cf = c
  revert z n h c; decide

/-- Settles O37: a step that answers has performed an admitted operation. -/
theorem outputsInvariantKept : Obligations.OutputsInvariantKept := by
  intro s t _ h
  obtain ⟨i, -, ha, rfl⟩ := step_next h
  have ha' : s.advance.admits i = true := ha
  exact ⟨outputsInv_completed ha', completed_resetDone_of_admits ha', rfl,
    ⟨_, (reads_of_access (it := .f) rfl).2 rfl, value_f_and_mask _⟩,
    ⟨_, (reads_of_access (it := .pair .AF) rfl).2 rfl, append_zero_nibble_and _⟩⟩

end Sys2Proof.Machine
end

section
/-! The flags packer (40_flags_packer.md R91 to R96, R99): its functions bit by bit, and its wires. -/

namespace Sys2Proof.Machine

/-! ## The wires: four each way, whose levels are the bits themselves -/

theorem ofBool_beq_one (b : Bit) : BitVec.ofBool (b == 1) = b := by
  revert b; decide

@[simp] theorem latch_wires (f : Flags) : f.wires.latch = f := by
  simp only [Flags.wires, FlagWires.latch, ofBool_beq_one]

theorem packWires_eq_flagsToByte_latch (w : FlagWires) : packWires w = flagsToByte w.latch := rfl

theorem latch_unpackWires (b : Byte) : (unpackWires b).latch = flagsFromByte b := by
  simp only [unpackWires, FlagWires.latch, flagsFromByte, extractLsb'_one]

/-- The unpack half as a function of the high nibble alone. -/
theorem unpackWires_eq_highNibble (b : Byte) :
    unpackWires b = ⟨(b.extractLsb' 4 4).getLsbD 3, (b.extractLsb' 4 4).getLsbD 2, (b.extractLsb' 4 4).getLsbD 1,
      (b.extractLsb' 4 4).getLsbD 0⟩ := by
  simp [unpackWires]

/-- Settles O43: what the cells latch from their own wires is what they hold, and the unpack half sees a high nibble. -/
theorem packerWiresAreThePackerFunctions : Obligations.PackerWiresAreThePackerFunctions := by
  refine ⟨fun f => ⟨?_, latch_wires f⟩, latch_unpackWires, fun b b' h => ?_⟩
  · rw [packWires_eq_flagsToByte_latch, latch_wires]
  · rw [unpackWires_eq_highNibble b, h, ← unpackWires_eq_highNibble b']

/-! ## The functions -/

theorem flagsContains_flagsFromByte (b : Byte) (c : Cond) :
    flagsContains (flagsFromByte b) c = b.extractLsb' (bitpos c) 1 := by
  cases c <;> rfl

/-- A condition's field is its bit of the packed byte: unpacking that byte gives the fields back. -/
theorem flagsContains_eq_bit (f : Flags) (c : Cond) : flagsContains f c = (flagsToByte f).extractLsb' (bitpos c) 1 := by
  rw [← flagsContains_flagsFromByte, flagsFromByte_flagsToByte]

theorem flagsToByte_injective : Function.Injective flagsToByte :=
  Function.LeftInverse.injective flagsFromByte_flagsToByte

theorem flagsContains_flagsEmpty (c : Cond) : flagsContains flagsEmpty c = 0 := by
  cases c <;> rfl

/-- R94's second spelling: at 8 bits, four shifts joined by or. -/
theorem flagsToByte_eq_or_shifts (z n h c : Bit) : flagsToByte ⟨z, n, h, c⟩ =
    (z.setWidth 8 <<< 7) ||| (n.setWidth 8 <<< 6) ||| (h.setWidth 8 <<< 5) ||| (c.setWidth 8 <<< 4) := by
  revert z n h c; decide

/-- Settles O20: the packed byte determines the fields, because unpacking gives them back. -/
theorem flagFunctionsPackAndUnpack : Obligations.FlagFunctionsPackAndUnpack :=
  ⟨⟨rfl, rfl, flagsContains_flagsEmpty⟩, fun _ _ _ _ => ⟨rfl, rfl, rfl, rfl⟩, ⟨rfl, rfl, rfl, rfl⟩,
    flagsContains_eq_bit, fun _ => rfl, ⟨rfl, rfl, rfl, rfl, rfl⟩,
    fun z n h c => ⟨rfl, flagsToByte_eq_or_shifts z n h c⟩, fun _ _ h => flagsToByte_injective h⟩

theorem flagsContains_flagsWith (f : Flags) (c d : Cond) (b : Bit) :
    flagsContains (flagsWith f c b) d = if d = c then b else flagsContains f d := by
  split
  case isTrue h => rw [h, flagsContains_flagsWith_same]
  case isFalse h => exact flagsContains_flagsWith_ne f b h

@[simp] theorem flagsWith_flagsWith_same (f : Flags) (c : Cond) (b b' : Bit) :
    flagsWith (flagsWith f c b) c b' = flagsWith f c b' := by
  apply Flags.ext_contains
  intro e
  by_cases h : e = c <;> simp [flagsContains_flagsWith, h]

theorem flagsWith_comm (f : Flags) {c d : Cond} (b b' : Bit) (h : d ≠ c) :
    flagsWith (flagsWith f c b) d b' = flagsWith (flagsWith f d b') c b := by
  apply Flags.ext_contains
  intro e
  by_cases hd : e = d
  · simp [flagsContains_flagsWith, hd, h]
  · simp [flagsContains_flagsWith, hd]

/-- Settles O21: two Flags values are equal when each condition reads the same, and a write decides one reading. -/
theorem flagWithReplacesOneField : Obligations.FlagWithReplacesOneField :=
  ⟨fun _ _ _ _ _ => ⟨rfl, rfl, rfl, rfl⟩,
    fun f c _ b b' => ⟨flagsContains_flagsWith_same f c b, flagsContains_flagsWith_ne f b, flagsWith_flagsWith_same f c b b',
      flagsWith_comm f b b'⟩,
    rfl, rfl⟩

/-! ## The mask (40_flags_packer.md R96), by nibbles -/

theorem highNibble_append_lowNibble (b : Byte) : b.extractLsb' 4 4 ++ b.extractLsb' 0 4 = b := by
  simpa using BitVec.extractLsb'_append_extractLsb'_eq_extractLsb' (x := b)
    (start₂ := 4) (len₂ := 4) (start₁ := 0) (len₁ := 4) rfl

theorem byte_and_mask (b : Byte) : b &&& 0xF0 = b.extractLsb' 4 4 ++ 0#4 := by
  have mask : (0xF0 : Byte) = BitVec.allOnes 4 ++ 0#4 := rfl
  conv_lhs => rw [← highNibble_append_lowNibble b, mask, BitVec.and_append, BitVec.and_allOnes, BitVec.and_zero]

theorem byte_and_mask_eq_self_iff (b : Byte) : b &&& 0xF0 = b ↔ b.extractLsb' 0 4 = 0 := by
  rw [byte_and_mask]
  constructor
  · intro h
    rw [← h]
    exact BitVec.extractLsb'_append_eq_right
  · intro h
    conv_rhs => rw [← highNibble_append_lowNibble b, h]
    rfl

/-- Settles O22: the round trip of a byte is the mask, which keeps the high nibble and puts zeros in the low one. -/
theorem flagConversionsMaskTheLowNibble : Obligations.FlagConversionsMaskTheLowNibble := by
  refine ⟨fun b => ⟨flagsToByte_flagsFromByte b, ?_⟩, flagsFromByte_flagsToByte⟩
  rw [flagsToByte_flagsFromByte]
  exact byte_and_mask_eq_self_iff b

end Sys2Proof.Machine
end

section
/-! The control operations (41_control.md R105 to R107): RESET and NOP, once and in any number of cycles. -/

namespace Sys2Proof.Machine

/-- A cycle with `rst` = 0 and `cmd_valid` = 1 spells what its select code and operand decode to. -/
theorem operation_of_sel_wdata (sel : Sel) (w : Word16) : Cycle.operation ⟨false, true, sel, w⟩ = decodeSel sel w := rfl

/-! ## RESET -/

/-- What RESET leaves: of the state before it only the cycles still to come. -/
theorem completed_reset (s : State) : completed s .reset =
    { cells := resetCells, resetDone := true, rvalid := false, rdata := 0x0000, inputs := s.inputs } := by
  simp only [completed, beq_self_eq_true, Bool.or_true]
  rfl

/-- Settles O9: the cells RESET leaves are those of `State.reset`, whose items have known values. -/
theorem resetSetsEveryCell : Obligations.ResetSetsEveryCell := by
  refine ⟨fun w => ?_, fun s => ?_, fun s => ?_, fun s s' => ?_, fun s v sel w rest => ?_, fun s h => ?_⟩
  · rw [decode_append, decodeSel_08]
  · rw [exec_completes, completed_reset]
  · rw [after_iff]
    refine ⟨?_, (reads_of_access rfl).2 (value_reset (.pair .AF)), (reads_of_access rfl).2 (value_reset .sp),
      (reads_of_access rfl).2 (value_reset .pc)⟩
    rw [exec_completes, completed_completed]
  · rw [after_iff, after_iff, completed_reset, completed_reset]
  · exact step_withInputs_exec rfl (admits_reset s)
  · rw [after_iff, completed_reset, h]

/-- Settles O38: `State.reset` is what RESET leaves, and any admitted operation leaves the outputs as they must be. -/
theorem outputsInvariantAtReset : Obligations.OutputsInvariantAtReset := by
  have hreset : completed State.reset .reset = State.reset := completed_reset State.reset
  have hinv : OutputsInv (completed State.reset .reset) := outputsInv_completed (admits_reset State.reset)
  rwa [hreset] at hinv

/-! ## One operation in several cycles -/

/-- A cycle that spells an admitted operation, at the front of a run. -/
theorem trace_succ_withInputs_cons {s : State} {c : Cycle} {i : Instr} (hc : c.operation = .op i)
    (ha : s.admits i = true) (n : Nat) (cs : List Cycle) : trace (n + 1) (s.withInputs (c :: cs)) =
      (trace n ((completed s i).withInputs cs)).map fun r => (r.1, (opStep s.cells i).2 :: r.2) := by
  have hstep : step (s.withInputs (c :: cs)) = .next ((completed s i).withInputs cs) := step_withInputs_cons hc ha
  simp only [trace, hstep, returned_withInputs, returned_completed]
  cases trace n ((completed s i).withInputs cs) <;> rfl

/-- An admitted operation held for several cycles leaves what it leaves once, because it is idempotent, and returns in each
cycle what it returns in the first. -/
theorem trace_of_operation_held {s : State} {i : Instr} (ha : s.admits i = true) {c : Cycle} {cs : List Cycle}
    (h : ∀ d ∈ c :: cs, d.operation = .op i) (rest : List Cycle) :
    trace (cs.length + 1) (s.withInputs (c :: (cs ++ rest))) =
      some ((completed s i).withInputs rest, List.replicate (cs.length + 1) (opStep s.cells i).2) := by
  obtain ⟨hc, hcs⟩ := List.forall_mem_cons.mp h
  rw [trace_succ_withInputs_cons hc ha]
  induction cs generalizing s c with
  | nil => rfl
  | cons d ds ih =>
    obtain ⟨hd, hds⟩ := List.forall_mem_cons.mp hcs
    have ha' : (completed s i).admits i = true := admits_of_resetDone (completed_resetDone_of_admits ha) i
    rw [List.length_cons, List.cons_append, trace_succ_withInputs_cons hd ha', ih ha' hcs hd hds]
    simp [List.replicate_succ]

/-- A cycle that spells RESET performs it whatever the block holds, before the first reset too. -/
theorem step_withInputs_reset (s : State) {c : Cycle} (hc : c.operation = .op .reset) (rest : List Cycle) :
    step (s.withInputs (c :: rest)) =
      .next { cells := resetCells, resetDone := true, rvalid := false, rdata := 0x0000, inputs := rest } := by
  rw [step_withInputs_cons hc (admits_reset s), completed_reset, State.withInputs_inputs]

/-- Settles O11: `rst` spells RESET, and held it is one operation in several cycles. -/
theorem resetPinWins : Obligations.ResetPinWins := by
  refine ⟨fun s v sel w rest => ?_, fun s cs rest hne hrst => ?_⟩
  · have hpin : Cycle.operation ⟨true, v, sel, w⟩ = .op .reset := rfl
    have hcode := (operation_of_sel_wdata 0x08#6 w).trans (decodeSel_08 w)
    exact ⟨step_withInputs_reset s hpin rest,
      (step_withInputs_reset s hpin rest).trans (step_withInputs_reset s hcode rest).symm⟩
  · obtain ⟨c, ds, rfl⟩ := List.exists_cons_of_ne_nil hne
    have hop : ∀ d ∈ c :: ds, d.operation = .op .reset := fun d hd => by simp [Cycle.operation, hrst d hd]
    rw [List.length_cons, List.cons_append, trace_of_operation_held (admits_reset s) hop, completed_reset]
    rfl

/-! ## NOP -/

theorem completed_nop (s : State) : completed s .nop = { s with rvalid := false, rdata := 0x0000 } := by
  simp [completed, opStep, accessOf]

/-- A cycle with no command or with the code 0x00 spells NOP. -/
theorem operation_eq_nop {c : Cycle} (h : c.rst = false ∧ (c.cmdValid = true → c.sel = 0x00)) :
    c.operation = .op .nop := by
  obtain ⟨hrst, hsel⟩ := h
  obtain ⟨rst, valid, sel, w⟩ := c
  obtain rfl : rst = false := hrst
  cases valid with
  | false => rfl
  | true =>
    obtain rfl : sel = 0x00#6 := hsel rfl
    exact (operation_of_sel_wdata 0x00#6 w).trans (decodeSel_00 w)

theorem opRun_replicate_nop (x : Cells) (n : Nat) : opRun x (List.replicate n .nop) = (x, List.replicate n none) := by
  induction n with
  | zero => rfl
  | succ n ih => simp [List.replicate_succ, opRun, opStep, accessOf, ih]

/-- NOPs before an operation change neither what it leaves nor what it returns. -/
theorem opRun_nops_concat (x : Cells) (n : Nat) (i : Instr) : opRun x (List.replicate n .nop ++ [i]) =
    ((opStep x i).1, List.replicate n none ++ [(opStep x i).2]) := by
  simp [opRun_append, opRun_replicate_nop, opRun]

/-- Settles O10: an idle run and the operation behind it are a run of NOPs and that operation at the operation level. -/
theorem nopChangesNothing : Obligations.NopChangesNothing := by
  refine ⟨fun w => ?_, fun s => ?_, fun s sel w rest hs => ?_, fun s idle i hs hidle => ?_⟩
  · rw [decode_append, decodeSel_00]
  · rw [writes_iff, completed_nop]
  · exact step_withInputs_exec rfl (admits_of_resetDone hs .nop)
  · have hnop : ∀ c ∈ idle, c.operation = .op .nop := fun c hc => operation_eq_nop (hidle c hc)
    have hop : (idle ++ [i.command]).map Cycle.operation =
        (List.replicate idle.length Instr.nop ++ [i]).map Decoded.op := by
      simp [List.map_congr_left hnop]
    obtain ⟨t, ht, hcells, -⟩ := trace_of_operations hop [] (.inl hs)
    rw [opRun_nops_concat] at ht hcells
    refine ⟨t, _, _, ?_, rfl, hcells, rfl⟩
    simpa using ht

end Sys2Proof.Machine
end

section
/-! Pair access (42_pair_access.md R115 to R129): the composer, the pair views, and the composer as hardware. -/

namespace Sys2Proof.Machine

/-! ## The composer's two functions (R115, R116) -/

/-- R115's second spelling: the high byte shifted up and joined with the low one by or. -/
theorem compose_eq_shift_or (hi lo : Byte) : compose hi lo = (hi.setWidth 16 <<< 8) ||| lo.setWidth 16 := by
  rw [compose, BitVec.append_def, BitVec.shiftLeftZeroExtend_eq, BitVec.setWidth'_eq]

theorem splitHi_eq_truncate_shift (v : Word16) : splitHi v = (v >>> 8).truncate 8 := by
  rw [splitLo_truncate, splitLo_shift]

theorem splitLo_eq_truncate_and (v : Word16) : splitLo v = (v &&& 0x00FF).truncate 8 := by
  have ones : (0x00FF : Word16).setWidth 8 = BitVec.allOnes 8 := rfl
  rw [BitVec.truncate, BitVec.setWidth_and, ones, BitVec.and_allOnes, ← splitLo_truncate]

/-- Settles O23: each spelling is a lemma of its own, and the corner cases are computed. -/
theorem composeAndSplitAreInverse : Obligations.ComposeAndSplitAreInverse :=
  ⟨fun hi lo => ⟨rfl, compose_eq_shift_or hi lo, splitHi_compose hi lo, splitLo_compose hi lo⟩,
    fun v => ⟨rfl, splitHi_eq_truncate_shift v, rfl, (splitLo_truncate v).symm, splitLo_eq_truncate_and v,
      compose_splitHi_splitLo v⟩,
    ⟨rfl, rfl, rfl, rfl, rfl, rfl⟩, ⟨rfl, rfl, rfl, rfl, rfl, rfl⟩⟩

/-! ## Pairs of cells: what a write of one leaves of the others -/

theorem readPair_writePair_ne (x : Cells) {p q : Pair} (v : Word16) (h : q ≠ p) :
    (x.writePair p v).readPair q = x.readPair q := by
  cases p with
  | AF => cases q with
    | AF => exact absurd rfl h
    | BC | DE | HL => rfl
  | BC => cases q with
    | BC => exact absurd rfl h
    | AF | DE | HL => rfl
  | DE => cases q with
    | DE => exact absurd rfl h
    | AF | BC | HL => rfl
  | HL => cases q with
    | HL => exact absurd rfl h
    | AF | BC | DE => rfl

@[simp] theorem Cells.writePair_sp (x : Cells) (p : Pair) (v : Word16) : (x.writePair p v).sp = x.sp := by
  cases p <;> rfl

@[simp] theorem Cells.writePair_pc (x : Cells) (p : Pair) (v : Word16) : (x.writePair p v).pc = x.pc := by
  cases p <;> rfl

theorem reads_getPairOp {p : Pair} {s : State} {v : Word16} : Reads (getPairOp p) s v ↔ s.cells.readPair p = v := by
  rw [reads_of_access (accessOf_getPairOp p), value_pair]

theorem completed_setPairOp_cells (s : State) (p : Pair) (v : Word16) :
    (completed s (setPairOp p v)).cells = s.cells.writePair p v := by
  rw [completed_cells, opStep_write (accessOf_setPairOp p v), store_pair]

theorem writes_setPairOp (s : State) (p : Pair) (v : Word16) : Writes (setPairOp p v) s (s.cells.writePair p v) := by
  rw [← store_pair]
  exact writes_of_access (accessOf_setPairOp p v)

/-- A pair read behind a pair write, whatever the two pairs are. -/
theorem reads_completed_setPairOp_same (s : State) (p : Pair) (v : Word16) :
    Reads (getPairOp p) (completed s (setPairOp p v)) (if p = .AF then v &&& 0xFFF0 else v) := by
  rw [reads_getPairOp, completed_setPairOp_cells, readPair_writePair]

theorem reads_completed_setPairOp_ne (s : State) {p q : Pair} (v : Word16) (h : q ≠ p) :
    Reads (getPairOp q) (completed s (setPairOp p v)) (s.cells.readPair q) := by
  rw [reads_getPairOp, completed_setPairOp_cells, readPair_writePair_ne s.cells v h]

/-! ## The pairs of two byte-wide cells (R126) -/

/-- `RD8.r`. -/
def readRegOp : Reg8 → Instr
  | .A => .rd8A
  | .B => .rd8B
  | .C => .rd8C
  | .D => .rd8D
  | .E => .rd8E
  | .H => .rd8H
  | .L => .rd8L

/-- `WR8.r v`. -/
def writeRegOp (r : Reg8) (v : Byte) : Instr :=
  match r with
  | .A => .wr8A v
  | .B => .wr8B v
  | .C => .wr8C v
  | .D => .wr8D v
  | .E => .wr8E v
  | .H => .wr8H v
  | .L => .wr8L v

theorem accessOf_readRegOp (r : Reg8) : accessOf (readRegOp r) = .read (.reg r) := by
  cases r <;> rfl

theorem accessOf_writeRegOp (r : Reg8) (v : Byte) : accessOf (writeRegOp r v) = .write (.reg r) (v.setWidth 16) := by
  cases r <;> rfl

theorem reads_readRegOp {r : Reg8} {s : State} {v : Byte} (h : s.cells.read8 r = v) : Reads (readRegOp r) s (0#8 ++ v) := by
  rw [reads_of_access (accessOf_readRegOp r), value_reg, zext16_byte, h]

theorem completed_writeRegOp_cells (s : State) (r : Reg8) (v : Byte) :
    (completed s (writeRegOp r v)).cells = s.cells.write8 r v := by
  rw [completed_cells, opStep_write (accessOf_writeRegOp r v), store_reg]

/-- The high and the low cell of the pairs that are two whole 8-bit cells: all but AF. -/
def exactHalves : Pair → Option (Reg8 × Reg8)
  | .AF => none
  | .BC => some (.B, .C)
  | .DE => some (.D, .E)
  | .HL => some (.H, .L)

section
variable {p : Pair} {hiReg loReg : Reg8} (h : exactHalves p = some (hiReg, loReg))
include h

theorem ne_af_of_exactHalves : p ≠ .AF := by
  rintro rfl
  cases h

theorem hi_ne_lo_of_exactHalves : hiReg ≠ loReg := by
  cases p <;> cases h <;> decide

theorem readPair_of_exactHalves (x : Cells) : x.readPair p = compose (x.read8 hiReg) (x.read8 loReg) := by
  cases p <;> cases h <;> rfl

theorem readPair_writePair_of_exactHalves (x : Cells) (v : Word16) : (x.writePair p v).readPair p = v := by
  rw [readPair_writePair, if_neg (ne_af_of_exactHalves h)]

/-- The halves of a written pair follow from its round trip, as splitting undoes composing. -/
theorem read8_hi_writePair (x : Cells) (v : Word16) : (x.writePair p v).read8 hiReg = splitHi v := by
  conv_rhs => rw [← readPair_writePair_of_exactHalves h x v, readPair_of_exactHalves h, splitHi_compose]

theorem read8_lo_writePair (x : Cells) (v : Word16) : (x.writePair p v).read8 loReg = splitLo v := by
  conv_rhs => rw [← readPair_writePair_of_exactHalves h x v, readPair_of_exactHalves h, splitLo_compose]

theorem readPair_write8_write8 (x : Cells) (hi lo : Byte) :
    ((x.write8 hiReg hi).write8 loReg lo).readPair p = compose hi lo := by
  rw [readPair_of_exactHalves h, Cells.read8_write8_same, Cells.read8_write8_ne _ _ (hi_ne_lo_of_exactHalves h),
    Cells.read8_write8_same]

/-- What is read behind the write of such a pair: the operand, its halves, and the other pairs as before. -/
theorem after_setPairOp_of_exactHalves (s : State) (v : Word16) {q₁ q₂ q₃ : Pair} (h₁ : q₁ ≠ p) (h₂ : q₂ ≠ p)
    (h₃ : q₃ ≠ p) : After (setPairOp p v) s fun t => Reads (getPairOp p) t v ∧
      Reads (readRegOp hiReg) t (0#8 ++ v.extractLsb' 8 8) ∧ Reads (readRegOp loReg) t (0#8 ++ v.extractLsb' 0 8) ∧
      (∃ x y z, Reads (getPairOp q₁) t x ∧ Reads (getPairOp q₁) s x ∧ Reads (getPairOp q₂) t y ∧
        Reads (getPairOp q₂) s y ∧ Reads (getPairOp q₃) t z ∧ Reads (getPairOp q₃) s z) ∧
      t.cells.sp = s.cells.sp ∧ t.cells.pc = s.cells.pc := by
  have hcells := completed_setPairOp_cells s p v
  rw [after_iff]
  refine ⟨?_, reads_readRegOp ?_, reads_readRegOp ?_, ⟨_, _, _,
    reads_completed_setPairOp_ne s v h₁, reads_getPairOp.2 rfl, reads_completed_setPairOp_ne s v h₂, reads_getPairOp.2 rfl,
    reads_completed_setPairOp_ne s v h₃, reads_getPairOp.2 rfl⟩, ?_, ?_⟩
  · rw [reads_getPairOp, hcells, readPair_writePair_of_exactHalves h]
  · rw [hcells, read8_hi_writePair h, splitHi]
  · rw [hcells, read8_lo_writePair h, splitLo]
  · rw [hcells, Cells.writePair_sp]
  · rw [hcells, Cells.writePair_pc]

/-- What is read behind the writes of its two cells, the high one first. -/
theorem after_writeRegOps_of_exactHalves (s : State) (hi lo : Byte) :
    After (writeRegOp hiReg hi) s fun r => After (writeRegOp loReg lo) r fun t =>
      Reads (getPairOp p) t (hi ++ lo) := by
  rw [after_iff, after_iff, reads_getPairOp, completed_writeRegOp_cells, completed_writeRegOp_cells,
    readPair_write8_write8 h, compose]

end

/-- Settles O24: the two lemmas above, at each of the three pairs of two byte-wide cells. -/
theorem exactPairsRoundTrip : Obligations.ExactPairsRoundTrip := by
  intro s v hi lo
  have hBC : exactHalves .BC = some (.B, .C) := rfl
  have hDE : exactHalves .DE = some (.D, .E) := rfl
  have hHL : exactHalves .HL = some (.H, .L) := rfl
  exact ⟨after_setPairOp_of_exactHalves hBC s v (q₁ := .AF) (q₂ := .DE) (q₃ := .HL) (by decide) (by decide) (by decide),
    after_writeRegOps_of_exactHalves hBC s hi lo,
    after_setPairOp_of_exactHalves hDE s v (q₁ := .AF) (q₂ := .BC) (q₃ := .HL) (by decide) (by decide) (by decide),
    after_writeRegOps_of_exactHalves hDE s hi lo,
    after_setPairOp_of_exactHalves hHL s v (q₁ := .AF) (q₂ := .BC) (q₃ := .DE) (by decide) (by decide) (by decide),
    after_writeRegOps_of_exactHalves hHL s hi lo⟩

/-! ## AF (R127) -/

/-- The mask of AF, half by half: the high byte is kept, of the low one the high nibble. -/
theorem word_and_mask (v : Word16) : v &&& 0xFFF0 = compose (splitHi v) (splitLo v &&& 0xF0) := by
  rw [← compose_and_mask, compose_splitHi_splitLo]

theorem splitLo_lowNibble (v : Word16) : (splitLo v).extractLsb' 0 4 = v.extractLsb' 0 4 := by
  apply BitVec.eq_of_getLsbD_eq
  intro i hi
  simp [splitLo, hi]

theorem word_and_mask_eq_self_iff (v : Word16) : v &&& 0xFFF0 = v ↔ v.extractLsb' 0 4 = 0 := by
  rw [word_and_mask, ← splitLo_lowNibble, ← byte_and_mask_eq_self_iff]
  constructor
  · intro h
    rw [← splitLo_compose (splitHi v) (splitLo v &&& 0xF0), h]
  · intro h
    rw [h, compose_splitHi_splitLo]

theorem word_and_mask_eq_or (v : Word16) : v &&& 0xFFF0 = (v &&& 0xFF00) ||| (v &&& 0x00F0) := by
  rw [← BitVec.and_or_distrib_left]
  rfl

/-- Settles O25: the one value RDP.AF returns behind the write is the masked operand. -/
theorem afRoundTripIsMasked : Obligations.AfRoundTripIsMasked := by
  intro s v
  have hread (w : Word16) : Reads .rdpAF (completed s (.wrpAF v)) w ↔ v &&& 0xFFF0 = w := by
    have hcells : (completed s (.wrpAF v)).cells.readPair .AF = v &&& 0xFFF0 :=
      reads_getPairOp.1 (reads_completed_setPairOp_same s .AF v)
    rw [← hcells]
    exact reads_getPairOp (p := .AF)
  rw [after_iff, after_iff, hread, hread, hread]
  exact ⟨⟨rfl, word_and_mask_eq_or v⟩, word_and_mask_eq_self_iff v⟩

/-! ## Repeated reads (R128) -/

theorem opRun_reads_cells (x : Cells) {is : List Instr} (h : ∀ i ∈ is, ∃ it, accessOf i = .read it) :
    (opRun x is).1 = x := by
  induction is with
  | nil => rfl
  | cons i is ih =>
    obtain ⟨⟨it, hi⟩, his⟩ := List.forall_mem_cons.1 h
    rw [opRun, opStep_read hi]
    exact ih his

/-- Settles O26: the run is the operation level's, where no read changes a cell. -/
theorem pairReadsAreIdempotent : Obligations.PairReadsAreIdempotent := by
  intro s p is h
  have hpair (x : Cells) : opStep x (getPairOp p) = (x, some (x.readPair p)) := by
    rw [opStep_read (accessOf_getPairOp p), value_pair]
  have hrun : opRun s.cells (getPairOp p :: (is ++ [getPairOp p])) =
      (s.cells, some (s.cells.readPair p) :: ((opRun s.cells is).2 ++ [some (s.cells.readPair p)])) := by
    simp [opRun, opRun_append, hpair, opRun_reads_cells s.cells h]
  obtain ⟨t, ht, hcells, -⟩ := execAll_completes (getPairOp p :: (is ++ [getPairOp p])) s
  rw [hrun] at ht hcells
  exact ⟨t, _, _, ht, opRun_length s.cells is, hcells⟩

/-! ## The composer as hardware (R117, R129) -/

theorem sel_getPairOp (p : Pair) : (getPairOp p).sel = 0b1100#4 ++ pairIdx p := by
  cases p <;> rfl

theorem sel_setPairOp (p : Pair) (v : Word16) : (setPairOp p v).sel = 0b1110#4 ++ pairIdx p := by
  cases p <;> rfl

theorem composerRead_pairIdx (p : Pair) (x : Cells) : composerRead (pairIdx p) x = x.readPair p := by
  have hF : packWires x.fl.wires = x.readF := by
    rw [packWires_eq_flagsToByte_latch, latch_wires, Cells.readF]
  rw [composerRead, hF]
  cases p <;> rfl

theorem composerWrite_pairIdx (p : Pair) (v : Word16) (x : Cells) : composerWrite (pairIdx p) v x = x.writePair p v := by
  rw [composerWrite, latch_unpackWires]
  cases p <;> rfl

/-- Settles O44: both sides of the structure are the functions by which RDP and WRP are performed. -/
theorem composerStructureIsThePairAccess : Obligations.ComposerStructureIsThePairAccess := by
  intro s p v
  refine ⟨?_, ?_, ?_, ?_⟩
  · rw [sel_getPairOp, BitVec.extractLsb'_append_eq_right]
  · rw [sel_setPairOp, BitVec.extractLsb'_append_eq_right]
  · rw [composerRead_pairIdx, reads_getPairOp]
  · rw [composerWrite_pairIdx]
    exact writes_setPairOp s p v

/-! ## The pair operations one by one (R118 to R125) -/

theorem exists_reads_of_exactHalves {p : Pair} {r q : Reg8} (h : exactHalves p = some (r, q)) (v : Word16) :
    ∃ t, Reads (getPairOp p) t v := by
  refine ⟨completed State.reset (setPairOp p v), ?_⟩
  rw [reads_getPairOp, completed_setPairOp_cells, readPair_writePair_of_exactHalves h]

/-- Settles O18: a pair read gives `readPair`, and any value of an exact pair is read once it has been written. -/
theorem pairReadsCompose : Obligations.PairReadsCompose := by
  intro s w
  have hread (p : Pair) : Reads (getPairOp p) s (s.cells.readPair p) := reads_getPairOp.2 rfl
  have hreset (p : Pair) : Reads (getPairOp p) (completed s .reset) 0x0000 :=
    (reads_of_access (accessOf_getPairOp p)).2 (value_reset (.pair p))
  exact ⟨⟨decode_append _ _, hread .AF⟩, ⟨decode_append _ _, hread .BC⟩, ⟨decode_append _ _, hread .DE⟩,
    ⟨decode_append _ _, hread .HL⟩, after_iff.2 ⟨hreset .AF, hreset .BC, hreset .DE, hreset .HL⟩,
    fun _ _ => ⟨exists_reads_of_exactHalves (p := .BC) rfl _, exists_reads_of_exactHalves (p := .DE) rfl _,
      exists_reads_of_exactHalves (p := .HL) rfl _⟩⟩

theorem flagsFromByte_and_mask (b : Byte) : flagsFromByte (b &&& 0xF0) = flagsFromByte b := by
  rw [← flagsToByte_flagsFromByte, flagsFromByte_flagsToByte]

theorem writePair_af_and_mask (x : Cells) (v : Word16) : x.writePair .AF (v &&& 0xFFF0) = x.writePair .AF v := by
  simp only [Cells.writePair, Cells.writeF, word_and_mask, splitHi_compose, splitLo_compose, flagsFromByte_and_mask]

theorem flagsFromByte_splitLo_bits (v : Word16) : flagsFromByte (splitLo v) =
    ⟨v.extractLsb' 7 1, v.extractLsb' 6 1, v.extractLsb' 5 1, v.extractLsb' 4 1⟩ := by
  simp only [flagsFromByte_splitLo, bitOf, extractLsb'_one]

/-- Settles O19: a pair write is `writePair`, which for AF sees only the masked operand. -/
theorem pairWritesSplit : Obligations.PairWritesSplit := by
  intro s v
  refine ⟨⟨decode_append _ _, ?_, fun v' h => ?_⟩, ⟨decode_append _ _, writes_setPairOp s .BC v⟩,
    ⟨decode_append _ _, writes_setPairOp s .DE v⟩, ⟨decode_append _ _, writes_setPairOp s .HL v⟩, ?_⟩
  · rw [← flagsFromByte_splitLo_bits]
    exact writes_setPairOp s .AF v
  · have hcells : s.cells.writePair .AF v' = s.cells.writePair .AF v := by
      rw [← writePair_af_and_mask, h, writePair_af_and_mask]
    exact (writes_setPairOp s .AF v').trans (hcells ▸ (writes_setPairOp s .AF v).symm)
  · simp only [after_iff]
    exact ⟨⟨rfl, rfl⟩, ⟨rfl, rfl⟩, reads_completed_setPairOp_same s .AF 0x000F,
      reads_completed_setPairOp_same s .AF 0xFFFF, reads_completed_setPairOp_same s .BC 0xFFFF,
      reads_readRegOp (r := .D) (v := 0x00) rfl, reads_readRegOp (r := .E) (v := 0x01) rfl⟩

end Sys2Proof.Machine
end

section
/-! Reads and writes by item (43_direct_access.md R163): what an item's read returns behind a write, of the same item and of
others, and the order of two writes. -/

namespace Sys2Proof.Machine

/-! ## A write and the read of the same item (R163 (1)) -/

/-- The operands of a write to an item: as wide as the item, zero-extended (30_encoding.md R78). -/
inductive IsOperand : Item → Word16 → Prop where
  | reg (r : Reg8) (v : Byte) : IsOperand (.reg r) (v.setWidth 16)
  | f (v : Byte) : IsOperand .f (v.setWidth 16)
  | flag (c : Cond) (b : Bit) : IsOperand (.flag c) (b.setWidth 16)
  | pair (p : Pair) (v : Word16) : IsOperand (.pair p) v
  | sp (v : Word16) : IsOperand .sp v
  | pc (v : Word16) : IsOperand .pc v

theorem isOperand_of_write {w : Instr} {it : Item} {v : Word16} (h : accessOf w = .write it v) : IsOperand it v := by
  cases w <;> cases h <;> constructor

/-- The bits of an operand that the item's read shows again: all but the low nibble of F (40_flags_packer.md R96). -/
def Item.readMask : Item → Word16
  | .f => 0x00F0
  | .pair .AF => 0xFFF0
  | _ => 0xFFFF

theorem word_and_ones (v : Word16) : v &&& 0xFFFF = v := BitVec.and_allOnes

/-- The mask of F, before and behind the extension to 16 bits. -/
theorem zext16_and_mask (v : Byte) : zext16 (v &&& 0xF0) = v.setWidth 16 &&& 0x00F0 := BitVec.setWidth_and

/-- What an item shows of an operand stored in it. -/
theorem value_store_same (x : Cells) {it : Item} {v : Word16} (h : IsOperand it v) :
    it.value (it.store x v) = v &&& it.readMask := by
  cases h with
  | reg r v =>
    rw [store_reg, value_reg, Cells.read8_write8_same]
    exact (word_and_ones (zext16 v)).symm
  | f v => rw [store_f, value_f, Cells.readF, Cells.writeF_fl, flagsToByte_flagsFromByte, zext16_and_mask, Item.readMask]
  | flag c b =>
    rw [store_flag, value_flag, Cells.readFlag, Cells.writeFlag_fl, flagsContains_flagsWith_same]
    exact (word_and_ones (zext16 b)).symm
  | pair p v =>
    rw [store_pair, value_pair, readPair_writePair]
    cases p with
    | AF => rfl
    | BC | DE | HL => exact (word_and_ones v).symm
  | sp | pc => exact (word_and_ones v).symm

/-- Settles O27: the operand fits its item, which shows it under the item's mask. -/
theorem writeThenReadReturnsTheOperand : Obligations.WriteThenReadReturnsTheOperand := by
  intro s w r it v hw hr
  rw [after_iff, completed_write hw, reads_of_access hr]
  exact value_store_same s.cells (isOperand_of_write hw)

/-! ## Items that share no cell (R163 (2)) -/

/-- The eighteen items (30_encoding.md R83). -/
def allItems : List Item :=
  [.reg .A, .reg .B, .reg .C, .reg .D, .reg .E, .reg .H, .reg .L, .f, .flag .ZF, .flag .NF, .flag .HF, .flag .CF,
    .pair .AF, .pair .BC, .pair .DE, .pair .HL, .sp, .pc]

theorem mem_allItems (it : Item) : it ∈ allItems := by
  cases it with
  | reg r => cases r <;> decide
  | flag c => cases c <;> decide
  | pair p => cases p <;> decide
  | f | sp | pc => decide

theorem notMem_cells_of_unshared {i j : Item} (h : i.shares j = false) {n : CellName} (hi : n ∈ i.cells) : n ∉ j.cells := by
  simpa using List.any_eq_false.1 h n hi

theorem byte_setWidth16_inj {v w : Byte} : v.setWidth 16 = w.setWidth 16 ↔ v = w :=
  (setWidth16_injective (by decide)).eq_iff

theorem bit_setWidth16_inj {v w : Bit} : v.setWidth 16 = w.setWidth 16 ↔ v = w :=
  (setWidth16_injective (by decide)).eq_iff

/-- The value of an item depends on the cells it is made of alone. -/
theorem value_congr {x y : Cells} {it : Item} (h : ∀ n ∈ it.cells, x.get n = y.get n) : it.value x = it.value y := by
  cases it with
  | reg r => cases r <;> simp_all [Item.cells, Cells.get, Item.value, byte_setWidth16_inj]
  | flag c => cases c <;> simp_all [Item.cells, Cells.get, Item.value, bit_setWidth16_inj]
  | pair p => cases p <;> simp_all [Item.cells, Cells.get, Item.value, byte_setWidth16_inj, bit_setWidth16_inj]
  | f | sp | pc => simp_all [Item.cells, Cells.get, Item.value, bit_setWidth16_inj]

theorem value_store_of_unshared (x : Cells) (v : Word16) {it jt : Item} (h : it.shares jt = false) :
    jt.value (it.store x v) = jt.value x :=
  value_congr fun _ hj => store_get_of_notMem x v fun hi => notMem_cells_of_unshared h hi hj

/-- Settles O28: sharing is computed for the eighteen items, and an item keeps its value as long as its cells keep theirs. -/
theorem writesKeepUnsharedItems : Obligations.WritesKeepUnsharedItems := by
  refine ⟨fun i j => ?_, fun s w r it jt v hw hr h => ⟨jt.value s.cells, (reads_of_access hr).2 rfl, ?_⟩⟩
  · have hi := mem_allItems i
    have hj := mem_allItems j
    revert j
    revert i
    decide
  · rw [after_iff, completed_write hw, reads_of_access hr]
    exact value_store_of_unshared s.cells v h

/-! ## Two writes (R163 (3), (4)) -/

/-- The thirteen contents determine the cells. -/
theorem Cells.ext_get {x y : Cells} (h : ∀ n, x.get n = y.get n) : x = y := by
  have byte {v w : Byte} (hv : v.setWidth 16 = w.setWidth 16) : v = w := byte_setWidth16_inj.1 hv
  have bit {v w : Bit} (hv : v.setWidth 16 = w.setWidth 16) : v = w := bit_setWidth16_inj.1 hv
  have hfl : x.fl = y.fl := Flags.ext_contains fun
    | .ZF => bit (h .zf)
    | .NF => bit (h .nf)
    | .HF => bit (h .hf)
    | .CF => bit (h .cf)
  cases x
  cases y
  rw [Cells.mk.injEq]
  exact ⟨byte (h .a), byte (h .b), byte (h .c), byte (h .d), byte (h .e), byte (h .h), byte (h .l), hfl,
    h .sp, h .pc⟩

/-- Stores in items that share no cell commute: each cell is stored by one of them at most. -/
theorem store_comm (x : Cells) (v w : Word16) {it jt : Item} (h : it.shares jt = false) :
    jt.store (it.store x v) w = it.store (jt.store x w) v := by
  apply Cells.ext_get
  intro n
  by_cases hi : n ∈ it.cells
  · have hj := notMem_cells_of_unshared h hi
    rw [store_get_of_notMem _ w hj, store_get_of_mem x (jt.store x w) v hi]
  · rw [store_get_of_notMem _ v hi]
    by_cases hj : n ∈ jt.cells
    · exact store_get_of_mem _ _ w hj
    · rw [store_get_of_notMem _ w hj, store_get_of_notMem _ w hj, store_get_of_notMem _ v hi]

/-- Of two stores in one item the later stands. -/
theorem store_store_later (x : Cells) (v w : Word16) (it : Item) : it.store (it.store x v) w = it.store x w := by
  apply Cells.ext_get
  intro n
  by_cases h : n ∈ it.cells
  · exact store_get_of_mem _ _ w h
  · simp only [store_get_of_notMem _ _ h]

/-- Settles O29: what two writes leave is two stores in the cells, and the rest of the state as one of them leaves it. -/
theorem writesCommuteOrLastWins : Obligations.WritesCommuteOrLastWins := by
  intro s w₁ w₂ i₁ i₂ v₁ v₂ h₁ h₂
  simp only [after_iff, exec_completes, completed_write h₁, completed_write h₂]
  constructor
  · intro h
    rw [store_comm s.cells v₁ v₂ h]
  · rintro rfl
    rw [store_store_later]

end Sys2Proof.Machine
end

section
/-! The flags by their own operations (43_direct_access.md R151 to R158, R164). -/

namespace Sys2Proof.Machine

/-! ## Flag reads, and F as the weights of the flags that are 1 -/

theorem accessOf_readFlagOp (c : Cond) : accessOf (readFlagOp c) = .read (.flag c) := by
  cases c <;> rfl

theorem reads_readFlagOp {c : Cond} {s : State} {b : Bit} (h : flagsContains s.cells.fl c = b) :
    Reads (readFlagOp c) s (0#15 ++ b) := by
  rw [reads_of_access (accessOf_readFlagOp c), value_flag, zext16_bit, Cells.readFlag, h]

theorem reads_rd8F {s : State} {v : Byte} (h : flagsToByte s.cells.fl = v) : Reads .rd8F s (0#8 ++ v) := by
  rw [reads_of_access (it := .f) rfl, value_f, zext16_byte, Cells.readF, h]

theorem flagsToByte_eq_or_weights (f : Flags) : flagsToByte f =
    ([Cond.ZF, .NF, .HF, .CF].filter fun c => flagsContains f c = 1).foldl (fun b c => b ||| flagWeight c) 0x00 := by
  obtain ⟨z, n, h, c⟩ := f
  revert z n h c; decide

/-! ## Any sequence of flag writes (R164) -/

theorem lastFlag_concat (c : Cond) (ws : List (Cond × Bit)) (w : Cond × Bit) :
    lastFlag c (ws ++ [w]) = if c = w.1 then w.2 else lastFlag c ws := by
  by_cases h : w.1 = c <;> simp [lastFlag, h, eq_comm (a := c)]

/-- A flag that was 0 holds the bit last written to it. -/
theorem flagsContains_opRun_writeFlagOps {x : Cells} (hx : x.fl = flagsEmpty) (ws : List (Cond × Bit)) (c : Cond) :
    flagsContains (opRun x (ws.map fun w => writeFlagOp w.1 w.2)).1.fl c = lastFlag c ws := by
  induction ws using List.reverseRecOn with
  | nil => exact hx ▸ flagsContains_flagsEmpty c
  | append_singleton ws w ih =>
    rw [List.map_append, List.map_singleton, opRun_concat_cells, opStep_write (accessOf_writeFlagOp w.1 w.2), store_flag,
      Cells.writeFlag_fl, flagsContains_flagsWith, ih, lastFlag_concat]

/-- Settles O30: the run leaves in each flag the bit last written, and F is read as the weights of the flags that are 1. -/
theorem flagWritesAreIndependent : Obligations.FlagWritesAreIndependent := by
  intro ws
  obtain ⟨t, ht, hcells, -⟩ := execAll_completes (ws.map fun w => writeFlagOp w.1 w.2) State.reset
  have hflag (c : Cond) : flagsContains t.cells.fl c = lastFlag c ws := by
    rw [hcells]
    exact flagsContains_opRun_writeFlagOps rfl ws c
  refine ⟨t, _, ht, fun c => reads_readFlagOp (hflag c), reads_rd8F ?_⟩
  simp only [flagsToByte_eq_or_weights, hflag]

/-! ## Flag reads one by one (R151 to R154) -/

/-- Behind WR8.F with a flag's weight that flag alone is 1. -/
theorem reads_readFlagOp_completed_wr8F_weight (s : State) (c d : Cond) :
    Reads (readFlagOp d) (completed s (.wr8F (flagWeight c))) (0#15 ++ if d = c then 1#1 else 0#1) := by
  apply reads_readFlagOp
  rw [completed_cells, opStep_write (it := .f) rfl, store_f, Cells.writeF_fl]
  cases c <;> cases d <;> rfl

/-- Settles O15: the flag clauses are one lemma at four conditions, and behind RESET the values are known. -/
theorem flagReadsReturnTheBit : Obligations.FlagReadsReturnTheBit := by
  intro s w
  have hreset (c : Cond) : Reads (readFlagOp c) (completed s .reset) 0 :=
    (reads_of_access (accessOf_readFlagOp c)).2 (value_reset (.flag c))
  have hweight := reads_readFlagOp_completed_wr8F_weight s
  simp only [after_iff]
  exact ⟨⟨decode_append _ _, reads_readFlagOp (c := .ZF) rfl⟩, ⟨decode_append _ _, reads_readFlagOp (c := .NF) rfl⟩,
    ⟨decode_append _ _, reads_readFlagOp (c := .HF) rfl⟩, ⟨decode_append _ _, reads_readFlagOp (c := .CF) rfl⟩,
    reads_rd8F rfl, reads_getPairOp (p := .AF).2 rfl,
    ⟨hweight .ZF .ZF, hweight .ZF .NF, hweight .ZF .HF, hweight .ZF .CF⟩,
    ⟨hweight .NF .ZF, hweight .NF .NF, hweight .NF .HF, hweight .NF .CF⟩,
    ⟨hweight .HF .ZF, hweight .HF .NF, hweight .HF .HF, hweight .HF .CF⟩,
    ⟨hweight .CF .ZF, hweight .CF .NF, hweight .CF .HF, hweight .CF .CF⟩,
    hreset .ZF, hreset .NF, hreset .HF, hreset .CF⟩

/-! ## Flag writes one by one (R155 to R158) -/

/-- A WRFL word decodes to its operand whatever `wdata[15:1]` holds. -/
theorem decode_bit_operand {sel : Sel} {op : Bit → Instr} (h : ∀ w, decodeSel sel w = .op (op (operand1 w)))
    (u : BitVec 15) (b : Bit) : decode (sel ++ (u ++ b : Word16)) = .op (op b) := by
  rw [decode_append_bit, h, operand1_append]

theorem writes_writeFlagOp (s : State) (c : Cond) (b : Bit) : Writes (writeFlagOp c b) s (s.cells.writeFlag c b) := by
  rw [writes_iff, completed_writeFlagOp]

theorem flagsWith_flagsContains (f : Flags) (c : Cond) : flagsWith f c (flagsContains f c) = f := by
  cases c <;> rfl

/-- Writing the value a flag holds changes nothing. -/
theorem writes_writeFlagOp_held {s : State} {c : Cond} {b : Bit} (h : flagsContains s.cells.fl c = b) :
    Writes (writeFlagOp c b) s s.cells := by
  have hcells : s.cells.writeFlag c b = s.cells := by
    rw [Cells.writeFlag, ← h, flagsWith_flagsContains]
  exact hcells ▸ writes_writeFlagOp s c b

theorem flagsToByte_flagsWith_flagsEmpty_one (c : Cond) : flagsToByte (flagsWith flagsEmpty c 1) = flagWeight c := by
  cases c <;> rfl

theorem flagsWith_flagsEmpty_zero (c : Cond) : flagsWith flagsEmpty c 0 = flagsEmpty := by
  cases c <;> rfl

/-- From ResetState a flag set is read as its weight in F, and cleared again leaves F at 0. -/
theorem after_reset_set_clear (s : State) (c : Cond) :
    After .reset s fun r => After (writeFlagOp c 1) r fun t => Reads .rd8F t (0#8 ++ flagWeight c) ∧
      After (writeFlagOp c 0) t fun t' => Reads .rd8F t' 0x0000 := by
  have hset : (resetCells.writeFlag c 1).fl = flagsWith flagsEmpty c 1 := rfl
  have hclear : ((resetCells.writeFlag c 1).writeFlag c 0).fl = flagsEmpty := by
    rw [Cells.writeFlag_fl, hset, flagsWith_flagsWith_same, flagsWith_flagsEmpty_zero]
  simp only [after_iff, completed_reset, completed_writeFlagOp]
  exact ⟨reads_rd8F (by rw [hset, flagsToByte_flagsWith_flagsEmpty_one]), reads_rd8F (v := 0x00) (by rw [hclear]; rfl)⟩

/-- Settles O16: four words, and for each condition the three lemmas above. -/
theorem flagWritesStoreTheBit : Obligations.FlagWritesStoreTheBit := fun s u b =>
  ⟨⟨decode_bit_operand decodeSel_28 u b, writes_writeFlagOp s .ZF b, writes_writeFlagOp_held (c := .ZF),
      after_reset_set_clear s .ZF⟩,
    ⟨decode_bit_operand decodeSel_29 u b, writes_writeFlagOp s .NF b, writes_writeFlagOp_held (c := .NF),
      after_reset_set_clear s .NF⟩,
    ⟨decode_bit_operand decodeSel_2A u b, writes_writeFlagOp s .HF b, writes_writeFlagOp_held (c := .HF),
      after_reset_set_clear s .HF⟩,
    ⟨decode_bit_operand decodeSel_2B u b, writes_writeFlagOp s .CF b, writes_writeFlagOp_held (c := .CF),
      after_reset_set_clear s .CF⟩⟩

end Sys2Proof.Machine
end

section
/-! The byte-wide items by their own operations (43_direct_access.md R135 to R150). -/

namespace Sys2Proof.Machine

/-- Settles O13: each byte read and each pair read at its item, and behind RESET the items have known values. -/
theorem byteReadsReturnTheCell : Obligations.ByteReadsReturnTheCell := by
  intro s w
  have hreg (r : Reg8) : Reads (readRegOp r) s (0#8 ++ s.cells.read8 r) := reads_readRegOp rfl
  have hpair (p : Pair) : Reads (getPairOp p) s (s.cells.readPair p) := reads_getPairOp.2 rfl
  have hreset (r : Reg8) : Reads (readRegOp r) (completed s .reset) 0x0000 :=
    (reads_of_access (accessOf_readRegOp r)).2 (value_reset (.reg r))
  exact ⟨⟨decode_append _ _, hreg .A⟩, ⟨decode_append _ _, reads_rd8F rfl⟩, ⟨decode_append _ _, hreg .B⟩,
    ⟨decode_append _ _, hreg .C⟩, ⟨decode_append _ _, hreg .D⟩, ⟨decode_append _ _, hreg .E⟩,
    ⟨decode_append _ _, hreg .H⟩, ⟨decode_append _ _, hreg .L⟩, hpair .AF, hpair .BC, hpair .DE, hpair .HL,
    after_iff.2 ⟨hreset .A, (reads_of_access rfl).2 (value_reset .f), hreset .B, hreset .C, hreset .D, hreset .E, hreset .H,
      hreset .L⟩⟩

/-! ## Byte writes (R143 to R150) -/

/-- A WR8 word decodes to its operand whatever `wdata[15:8]` holds. -/
theorem decode_byte_operand {sel : Sel} {op : Byte → Instr} (h : ∀ w, decodeSel sel w = .op (op (operand8 w)))
    (u v : Byte) : decode (sel ++ (u ++ v : Word16)) = .op (op v) := by
  rw [decode_append_byte, h, operand8_append]

theorem writes_writeRegOp (s : State) (r : Reg8) (v : Byte) : Writes (writeRegOp r v) s (s.cells.write8 r v) := by
  rw [← store_reg]
  exact writes_of_access (accessOf_writeRegOp r v)

/-- What is read behind the write of an 8-bit cell: the operand, and the pair view of the cells so written. -/
theorem after_writeRegOp (s : State) (r : Reg8) (v : Byte) {p : Pair} {w : Word16}
    (h : (s.cells.write8 r v).readPair p = w) :
    After (writeRegOp r v) s fun t => Reads (readRegOp r) t (0#8 ++ v) ∧ Reads (getPairOp p) t w := by
  rw [after_iff, reads_getPairOp, completed_writeRegOp_cells]
  refine ⟨reads_readRegOp ?_, h⟩
  rw [completed_writeRegOp_cells, Cells.read8_write8_same]

theorem completed_wr8F_cells (s : State) (v : Byte) : (completed s (.wr8F v)).cells = s.cells.writeF v := by
  rw [completed_cells, opStep_write (it := .f) rfl, store_f]

theorem writes_wr8F (s : State) (v : Byte) : Writes (.wr8F v) s (s.cells.writeF v) := by
  rw [← store_f]
  exact writes_of_access rfl

/-- Behind the write of F both its views show the operand under the mask. -/
theorem after_wr8F (s : State) (v : Byte) :
    After (.wr8F v) s fun t => Reads .rd8F t (0#8 ++ (v &&& 0xF0)) ∧ Reads .rdpAF t (s.cells.a ++ (v &&& 0xF0)) := by
  have hF : (s.cells.writeF v).readF = v &&& 0xF0 := flagsToByte_flagsFromByte v
  have hAF : (s.cells.writeF v).readPair .AF = compose s.cells.a (v &&& 0xF0) := by
    rw [← hF]
    rfl
  rw [after_iff]
  exact ⟨reads_rd8F (completed_wr8F_cells s v ▸ hF), reads_getPairOp (p := .AF).2 (completed_wr8F_cells s v ▸ hAF)⟩

/-- The write of F does not see its operand's low nibble. -/
theorem exec_wr8F_of_mask_eq (s : State) {v v' : Byte} (h : v' &&& 0xF0 = v &&& 0xF0) :
    exec (.wr8F v') s = exec (.wr8F v) s := by
  have hcells : s.cells.writeF v' = s.cells.writeF v := by
    rw [Cells.writeF, ← flagsFromByte_and_mask, h, flagsFromByte_and_mask, Cells.writeF]
  exact (writes_wr8F s v').trans (hcells ▸ (writes_wr8F s v).symm)

/-- On the flags WR8.F is WRP.AF with the same low byte. -/
theorem completed_wr8F_fl (s : State) (x v : Byte) :
    (completed s (.wr8F v)).cells.fl = (completed s (.wrpAF (compose x v))).cells.fl := by
  have hAF : (completed s (.wrpAF (compose x v))).cells = s.cells.writePair .AF (compose x v) :=
    completed_setPairOp_cells s .AF (compose x v)
  rw [completed_wr8F_cells, hAF, Cells.writePair, Cells.writeF_fl, Cells.writeF_fl, splitLo_compose]

/-- Settles O14: the clauses of a cell are the lemmas above at its register and its pair, those of F are its own. -/
theorem byteWritesStoreTheOperand : Obligations.ByteWritesStoreTheOperand := by
  intro s u v
  exact ⟨⟨decode_byte_operand decodeSel_18 u v, writes_writeRegOp s .A v, after_writeRegOp s .A v (p := .AF) rfl⟩,
    ⟨decode_byte_operand decodeSel_19 u v, writes_wr8F s v, after_wr8F s v, fun _ => exec_wr8F_of_mask_eq s,
      fun x => after_iff.2 (after_iff.2 (completed_wr8F_fl s x v))⟩,
    ⟨decode_byte_operand decodeSel_1A u v, writes_writeRegOp s .B v, after_writeRegOp s .B v (p := .BC) rfl⟩,
    ⟨decode_byte_operand decodeSel_1B u v, writes_writeRegOp s .C v, after_writeRegOp s .C v (p := .BC) rfl⟩,
    ⟨decode_byte_operand decodeSel_1C u v, writes_writeRegOp s .D v, after_writeRegOp s .D v (p := .DE) rfl⟩,
    ⟨decode_byte_operand decodeSel_1D u v, writes_writeRegOp s .E v, after_writeRegOp s .E v (p := .DE) rfl⟩,
    ⟨decode_byte_operand decodeSel_1E u v, writes_writeRegOp s .H v, after_writeRegOp s .H v (p := .HL) rfl⟩,
    ⟨decode_byte_operand decodeSel_1F u v, writes_writeRegOp s .L v, after_writeRegOp s .L v (p := .HL) rfl⟩⟩

end Sys2Proof.Machine
end

section
/-! SP and PC (43_direct_access.md R159 to R162): plain cells, which nothing advances. -/

namespace Sys2Proof.Machine

theorem reads_rdwSP {s : State} {v : Word16} : Reads .rdwSP s v ↔ s.cells.sp = v := reads_of_access (it := .sp) rfl

theorem reads_rdwPC {s : State} {v : Word16} : Reads .rdwPC s v ↔ s.cells.pc = v := reads_of_access (it := .pc) rfl

/-- Settles O17: a read returns its cell, a write replaces it and keeps the other. -/
theorem wideCellsArePlainStores : Obligations.WideCellsArePlainStores := fun _ _ =>
  ⟨decode_append _ _, decode_append _ _, decode_append _ _, decode_append _ _, reads_rdwSP.2 rfl, reads_rdwPC.2 rfl,
    writes_of_access (it := .sp) rfl, writes_of_access (it := .pc) rfl,
    after_iff.2 ⟨reads_rdwSP.2 rfl, reads_rdwPC.2 rfl⟩, after_iff.2 ⟨reads_rdwPC.2 rfl, reads_rdwSP.2 rfl⟩,
    after_iff.2 ⟨reads_rdwSP.2 rfl, reads_rdwPC.2 rfl⟩⟩

end Sys2Proof.Machine
end

section
/-! Legal cycles and the first reset (70_reset_and_hazards.md R197, R202). -/

namespace Sys2Proof.Machine

/-! ## Before the first reset (R197) -/

theorem admits_of_not_resetDone {s : State} (h : s.resetDone = false) {i : Instr} (hi : i ≠ .reset) :
    s.admits i = false := by
  simp [State.admits, h, hi]

/-- With no cycle to come the next one is idle. -/
theorem step_withInputs_nil (s : State) : step (s.withInputs []) = step (s.withInputs [Cycle.idle]) := rfl

/-- Settles O8: of all operations the block admits RESET alone, and an idle cycle spells NOP. -/
theorem noOperationBeforeTheFirstReset : Obligations.NoOperationBeforeTheFirstReset := by
  intro s c rest hs
  refine ⟨fun hc => ?_, fun i hc hi => ?_, ?_⟩
  · exact step_withInputs_exec hc (admits_reset s)
  · exact step_withInputs_not_admitted hc (admits_of_not_resetDone hs hi)
  · have hidle : Cycle.idle.operation = .op .nop := rfl
    rw [step_withInputs_nil]
    exact step_withInputs_not_admitted hidle (admits_of_not_resetDone hs (by decide))

/-! ## Legal cycles (R202) -/

/-- A cycle that is not legal spells nothing. -/
theorem operation_of_not_wellFormed {c : Cycle} (h : c.wellFormed = false) : c.operation = .reserved c.sel := by
  obtain ⟨⟨hrst, hvalid⟩, hsel⟩ : (c.rst = false ∧ c.cmdValid = true) ∧ reservedSel c.sel = true := by
    simpa [Cycle.wellFormed] using h
  simp [Cycle.operation, hrst, hvalid, decodeSel_of_reserved hsel]

/-- The next cycle is one of those to come, or it is idle. -/
theorem wellFormed_cycle {s : State} (h : ∀ c ∈ s.inputs, c.wellFormed = true) : s.cycle.wellFormed = true := by
  unfold State.cycle
  cases hin : s.inputs with
  | nil => rfl
  | cons c cs => exact h c (by simp [hin])

/-- A cycle that spells an admitted operation performs it, whether it is one of those to come or the idle one behind them. -/
theorem step_of_admits {s : State} {i : Instr} (hc : s.cycle.operation = .op i) (ha : s.admits i = true) :
    step s = .next (completed s.advance i) := by
  simp [step, hc, ha, exec_completes]

/-- Progress and preservation: a safe state has a next state, and that is safe again. -/
theorem exists_step_of_safeInputs {s : State} (h : SafeInputs s) : ∃ t, step s = .next t ∧ SafeInputs t := by
  obtain ⟨hlegal, hreset⟩ := h
  obtain ⟨i, hi⟩ := operation_of_wellFormed (wellFormed_cycle hlegal)
  have ha : s.admits i = true := by simpa [State.admits, hi] using hreset
  exact ⟨_, step_of_admits hi ha, fun c hc => hlegal c (List.mem_of_mem_tail hc), .inl (completed_resetDone_of_admits ha)⟩

/-- The induction over the cycles of a safe run. -/
theorem trace_of_safeInputs (n : Nat) {s : State} (h : SafeInputs s) :
    ∃ t rs, trace n s = some (t, rs) ∧ rs.length = n ∧ SafeInputs t := by
  induction n generalizing s with
  | zero => exact ⟨s, [], rfl, rfl, h⟩
  | succ n ih =>
    obtain ⟨t, hstep, ht⟩ := exists_step_of_safeInputs h
    obtain ⟨u, rs, hrun, hlen, hu⟩ := ih ht
    exact ⟨u, t.returned :: rs, by simp only [trace, hstep, hrun], by rw [List.length_cons, hlen], hu⟩

/-- Settles O39: safety is kept by every cycle of a run, and a cycle that is not legal spells a reserved code. -/
theorem safeRunsNeverStop : Obligations.SafeRunsNeverStop :=
  ⟨fun n _ h => trace_of_safeInputs n h, fun _ _ _ h => step_withInputs_reserved (operation_of_not_wellFormed h)⟩

end Sys2Proof.Machine
end

section
/-! Save and restore (70_reset_and_hazards.md R204). -/

namespace Sys2Proof.Machine

/-! ## SAVE: a run of reads -/

/-- Reads return the values of their items one after another and change no cell. -/
theorem opRun_of_reads (x : Cells) {is : List Instr} {its : List Item} (h : is.map accessOf = its.map Access.read) :
    opRun x is = (x, its.map fun it => some (it.value x)) := by
  induction is generalizing its with
  | nil =>
    obtain rfl : its = [] := by simpa using h.symm
    rfl
  | cons i is ih =>
    cases its with
    | nil => simp at h
    | cons it its =>
      obtain ⟨hi, his⟩ : accessOf i = .read it ∧ is.map accessOf = its.map Access.read := by simpa using h
      simp [opRun, opStep_read hi, ih his]

/-- The ten items of a save-state, in the order of 20_memory.md R53. -/
def savedItems : List Item :=
  [.reg .A, .f, .reg .B, .reg .C, .reg .D, .reg .E, .reg .H, .reg .L, .sp, .pc]

theorem value_f_eq_flagByte (x : Cells) : Item.f.value x = 0#8 ++ flagByte x.fl :=
  (value_f x).trans (zext16_byte x.readF)

theorem opRun_saveOps (x : Cells) : opRun x saveOps =
    (x, [some (0#8 ++ x.a), some (0#8 ++ flagByte x.fl), some (0#8 ++ x.b), some (0#8 ++ x.c), some (0#8 ++ x.d),
      some (0#8 ++ x.e), some (0#8 ++ x.h), some (0#8 ++ x.l), some x.sp, some x.pc]) := by
  rw [opRun_of_reads x (its := savedItems) rfl, ← value_f_eq_flagByte]
  rfl

/-! ## Writes of different cells, in any order -/

theorem opRun_cells_eq_foldl (x : Cells) (is : List Instr) :
    (opRun x is).1 = is.foldl (fun y i => (opStep y i).1) x := by
  induction is generalizing x with
  | nil => rfl
  | cons i is ih => exact ih _

/-- Operations that write no cell in common leave the same cells in either order: each cell is written by one of them at
most, and what is written to it does not depend on what the cells held. -/
theorem opStep_comm_of_disjoint {i j : Instr} (h : List.Disjoint (cellsWritten i) (cellsWritten j)) (x : Cells) :
    (opStep (opStep x i).1 j).1 = (opStep (opStep x j).1 i).1 := by
  apply Cells.ext_get
  intro n
  by_cases hi : n ∈ cellsWritten i
  · rw [opStep_get_of_notMem _ (h hi), opStep_get_of_mem x (opStep x j).1 hi]
  · rw [opStep_get_of_notMem (opStep x j).1 hi]
    by_cases hj : n ∈ cellsWritten j
    · exact opStep_get_of_mem _ _ hj
    · rw [opStep_get_of_notMem _ hj, opStep_get_of_notMem _ hj, opStep_get_of_notMem _ hi]

/-- A list of operations that writes no cell twice leaves the same cells in every order. -/
theorem opRun_cells_of_perm {is js : List Instr} (h : (is.flatMap cellsWritten).Nodup) (hp : js.Perm is) (x : Cells) :
    (opRun x js).1 = (opRun x is).1 := by
  obtain ⟨-, hdisjoint⟩ := List.nodup_flatMap.1 h
  have : Std.Symm (Function.onFun List.Disjoint cellsWritten) := ⟨fun _ _ h => h.symm⟩
  have hcomm : ∀ i ∈ is, ∀ j ∈ is, ∀ y, (opStep (opStep y i).1 j).1 = (opStep (opStep y j).1 i).1 := by
    intro i hi j hj
    by_cases hij : i = j
    · exact fun y => by rw [hij]
    · exact opStep_comm_of_disjoint (hdisjoint.forall hi hj hij)
  rw [opRun_cells_eq_foldl, opRun_cells_eq_foldl, hp.symm.foldl_eq' hcomm]

/-! ## RESTORE: what its writes leave, whatever the cells held -/

/-- The cells the ten values of a save-state stand for. -/
def cellsOfSaved (a f b c d e h l : Byte) (sp pc : Word16) : Cells where
  a := a
  b := b
  c := c
  d := d
  e := e
  h := h
  l := l
  fl := flagsFromByte f
  sp := sp
  pc := pc

theorem cellsOfSaved_flagByte (x : Cells) :
    cellsOfSaved x.a (flagByte x.fl) x.b x.c x.d x.e x.h x.l x.sp x.pc = x := by
  have hfl : flagsFromByte (flagByte x.fl) = x.fl := flagsFromByte_flagsToByte x.fl
  simp only [cellsOfSaved, hfl]

section
variable (x : Cells) (a f b c d e h l : Byte) (sp pc : Word16)

theorem opRun_restoreOps_tail_cells :
    (opRun x (restoreOps a f b c d e h l sp pc).tail).1 = cellsOfSaved a f b c d e h l sp pc := by
  simp [opRun, restoreOps, opStep, accessOf, Cells.write8, Cells.writeF, cellsOfSaved]

/-- The leading RESET leaves nothing of its own behind. -/
theorem opRun_restoreOps_cells :
    (opRun x (restoreOps a f b c d e h l sp pc)).1 = cellsOfSaved a f b c d e h l sp pc := by
  have hreset : restoreOps a f b c d e h l sp pc = .reset :: (restoreOps a f b c d e h l sp pc).tail := rfl
  rw [hreset, opRun, opRun_restoreOps_tail_cells]

theorem opRun_pairWrites_cells :
    (opRun x [.wrpAF (compose a f), .wrpBC (compose b c), .wrpDE (compose d e), .wrpHL (compose h l), .wrwSP sp,
      .wrwPC pc]).1 = cellsOfSaved a f b c d e h l sp pc := by
  simp [opRun, opStep, accessOf, Cells.writePair, Cells.write8, Cells.writeF, cellsOfSaved]

/-- The ten writes write each of the thirteen cells once. -/
theorem nodup_cellsWritten_restoreOps_tail :
    ((restoreOps a f b c d e h l sp pc).tail.flatMap cellsWritten).Nodup := by
  have hcells : (restoreOps a f b c d e h l sp pc).tail.flatMap cellsWritten =
      [.a, .zf, .nf, .hf, .cf, .b, .c, .d, .e, .h, .l, .sp, .pc] := rfl
  rw [hcells]
  decide

end

theorem execAll_restoreOps_and_mask (s : State) (a f b c d e h l : Byte) (sp pc : Word16) :
    execAll (restoreOps a f b c d e h l sp pc) s = execAll (restoreOps a (f &&& 0xF0) b c d e h l sp pc) s := by
  have hF (t : State) : exec (.wr8F (f &&& 0xF0)) t = exec (.wr8F f) t :=
    exec_wr8F_of_mask_eq t (by rw [BitVec.and_assoc, BitVec.and_self])
  simp only [restoreOps, execAll, hF]

theorem operation_map_command (is : List Instr) :
    (is.map Instr.command).map Cycle.operation = is.map Decoded.op := by
  simp

/-- Settles O42: the runs are the operation level's, where SAVE reads the ten items and RESTORE, its writes in any order and
the pair writes all leave the cells the ten values stand for. -/
theorem saveThenRestoreGivesTheStateBack : Obligations.SaveThenRestoreGivesTheStateBack := by
  refine ⟨fun s rest hs => ?_, fun x s rest => ?_, execAll_restoreOps_and_mask,
    fun s a f b c d e h l sp pc ws hws => ?_⟩
  · obtain ⟨t, hrun, hcells, hinputs⟩ := trace_of_operations (operation_map_command saveOps) rest (.inl hs)
    rw [opRun_saveOps] at hrun hcells
    exact ⟨t, hrun, hcells, hinputs⟩
  · obtain ⟨t, hrun, hcells, hinputs⟩ := trace_of_operations (s := s) (operation_map_command
      (restoreOps x.a (flagByte x.fl) x.b x.c x.d x.e x.h x.l x.sp x.pc)) rest (.inr rfl)
    rw [opRun_restoreOps_cells, cellsOfSaved_flagByte] at hcells
    exact ⟨t, _, hrun, hcells, hinputs⟩
  · obtain ⟨t, hrun, hcells, -⟩ := execAll_completes (restoreOps a f b c d e h l sp pc) s
    obtain ⟨t', hrun', hcells', -⟩ := execAll_completes ws s
    obtain ⟨t'', hrun'', hcells'', -⟩ := execAll_completes
      [.wrpAF (compose a f), .wrpBC (compose b c), .wrpDE (compose d e), .wrpHL (compose h l), .wrwSP sp, .wrwPC pc] s
    rw [opRun_restoreOps_cells] at hcells
    rw [opRun_cells_of_perm (nodup_cellsWritten_restoreOps_tail a f b c d e h l sp pc) hws,
      opRun_restoreOps_tail_cells] at hcells'
    rw [opRun_pairWrites_cells] at hcells''
    exact ⟨t, _, t', _, t'', _, hrun, hrun', hrun'', hcells'.trans hcells.symm, hcells''.trans hcells.symm⟩

end Sys2Proof.Machine
end
